-- ==== Sys2Proof/Word.lean ====
section
/-! DEFINITION. The word types of CSUM16 (00_scope.md R5, rows P1, P2, P7 and P8). All values are unsigned (R6, R43). -/

namespace Sys2Proof

/-- A byte of the absorbed stream: 8 bits (R5, P2). -/
abbrev Byte := BitVec 8

/-- A 16-bit word: the sum, a stream word, an argument, a response (R5, P1 and P8). -/
abbrev Word := BitVec 16

/-- A command word `CMD`: 20 bits, an abstract number without a byte order (R5, P7; 20_memory.md R22; 30_encoding.md R31). -/
abbrev Command := BitVec 20

end Sys2Proof
end

