-- ==== Sys2Proof/Syntax.lean ====
section
/-! DEFINITION. The instructions: the eight commands of the opcode map (30_encoding.md R34), one constructor per row of
spec/opcode_table.json. An operand has exactly the bits its form gives it (R31, R33), so every `Instr` is well-formed by its
type; what can be ill-formed is a source line (WellFormed.lean) or an argument field (`Form.admits` in Decode.lean). -/

namespace Sys2Proof

/-- A command of the block (R34). -/
inductive Instr where
  /-- Do nothing (42_system.md R60). -/
  | nop
  /-- Start a new computation (40_accumulate.md R40). -/
  | clr
  /-- Absorb one byte (R41). -/
  | addb (b : Byte)
  /-- Absorb two bytes, high byte first (R42). -/
  | addw (w : Word)
  /-- Read the padded sum (41_readout.md R52). -/
  | rdsum
  /-- Read the final checksum (R53). -/
  | rdcsum
  /-- Compare a stored checksum with the final checksum (R54). -/
  | verify (c : Word)
  /-- Read the status word (42_system.md R61). -/
  | rdst
deriving DecidableEq, Repr

end Sys2Proof
end

