-- ==== Sys2Proof/Decode.lean ====
section
/-! DEFINITION. Command words: their fields and forms (30_encoding.md R31, R33), the total decode (R39), the encoder (R39), the
opcode map with its match and mask values (R34), and how a word of spec/opcode_table.json is read. -/

namespace Sys2Proof

/-- `OP`, bits 19:16 (R31). -/
def opField (w : Command) : BitVec 4 := w.extractLsb' 16 4

/-- `ARG`, bits 15:0 (R31). -/
def argField (w : Command) : Word := w.extractLsb' 0 16

/-- The three operand forms (R31). -/
inductive Form where
  | z
  | b
  | w
deriving DecidableEq, Repr

/-- The must-be-zero bits of a form's argument are zero (R31). -/
def Form.admits : Form → Word → Bool
  | .z, arg => arg == 0x0000#16
  | .b, arg => arg.extractLsb' 8 8 == 0x00#8
  | .w, _ => true

/-- Why a command word is reserved (R35, the two kinds). The block does not record it (60_exceptions.md R90). -/
inductive Reserved where
  /-- Kind 1: `OP` in 0x8 to 0xF. -/
  | opcode
  /-- Kind 2: a defined `OP` with a must-be-zero argument bit set. -/
  | argument
deriving DecidableEq, Repr

/-- The outcomes of decode: the eight commands, or a reserved word (R39). -/
inductive Decoded where
  | command (i : Instr)
  | reserved (r : Reserved)
deriving DecidableEq, Repr

/-- Decode, in the order of R39. It does not look at the state. -/
def decode (w : Command) : Decoded :=
  let op := opField w
  let arg := argField w
  if op = 0x0#4 ∧ Form.z.admits arg then .command .nop
  else if op = 0x1#4 ∧ Form.z.admits arg then .command .clr
  else if op = 0x2#4 ∧ Form.b.admits arg then .command (.addb (arg.extractLsb' 0 8))
  else if op = 0x3#4 ∧ Form.w.admits arg then .command (.addw arg)
  else if op = 0x4#4 ∧ Form.z.admits arg then .command .rdsum
  else if op = 0x5#4 ∧ Form.z.admits arg then .command .rdcsum
  else if op = 0x6#4 ∧ Form.w.admits arg then .command (.verify arg)
  else if op = 0x7#4 ∧ Form.z.admits arg then .command .rdst
  else if op < 0x8#4 then .reserved .argument
  else .reserved .opcode

/-- The opcode of a command (R34). -/
def opcodeOf : Instr → BitVec 4
  | .nop => 0x0#4
  | .clr => 0x1#4
  | .addb _ => 0x2#4
  | .addw _ => 0x3#4
  | .rdsum => 0x4#4
  | .rdcsum => 0x5#4
  | .verify _ => 0x6#4
  | .rdst => 0x7#4

/-- The operand form of a command (R34). -/
def formOf : Instr → Form
  | .nop | .clr | .rdsum | .rdcsum | .rdst => .z
  | .addb _ => .b
  | .addw _ | .verify _ => .w

/-- The argument field of a command: operand 0 for form `Z` (R39). -/
def argOf : Instr → Word
  | .nop | .clr | .rdsum | .rdcsum | .rdst => 0x0000#16
  | .addb b => 0x00#8 ++ b
  | .addw w => w
  | .verify c => c

/-- Encode: `OP ‖ ARG` (R31, R39). -/
def encode (i : Instr) : Command := opcodeOf i ++ argOf i

/-- One row of the opcode map (R34): a word `w` is the command exactly when `w AND mask = match`. -/
structure OpcodeRow where
  form : Form
  value : Command
  mask : Command
deriving DecidableEq, Repr

/-- The row selects the word (R34). -/
def OpcodeRow.selects (r : OpcodeRow) (w : Command) : Bool := w &&& r.mask == r.value

/-- The row of a command (R34). -/
def rowOf : Instr → OpcodeRow
  | .nop => ⟨.z, 0x00000#20, 0xFFFFF#20⟩
  | .clr => ⟨.z, 0x10000#20, 0xFFFFF#20⟩
  | .addb _ => ⟨.b, 0x20000#20, 0xFFF00#20⟩
  | .addw _ => ⟨.w, 0x30000#20, 0xF0000#20⟩
  | .rdsum => ⟨.z, 0x40000#20, 0xFFFFF#20⟩
  | .rdcsum => ⟨.z, 0x50000#20, 0xFFFFF#20⟩
  | .verify _ => ⟨.w, 0x60000#20, 0xF0000#20⟩
  | .rdst => ⟨.z, 0x70000#20, 0xFFFFF#20⟩

/-- The complete opcode map, in the order of R34. -/
def opcodeMap : List OpcodeRow :=
  [rowOf .nop, rowOf .clr, rowOf (.addb 0), rowOf (.addw 0), rowOf .rdsum, rowOf .rdcsum, rowOf (.verify 0), rowOf .rdst]

/-- The command word of a table row's bits: bit 0 is the least significant bit of the 20-bit number, bits above `nbits` are zero.
`none` where a bit above bit 19 is set: there is no such command word (R31). DESIGN CHOICE (log entry 5). -/
def tableCommand (nbits w : Nat) : Option Command :=
  if w % 2 ^ nbits < 2 ^ 20 then some (BitVec.ofNat 20 (w % 2 ^ nbits)) else none

/-- The instruction the decoder reads from a word of spec/opcode_table.json (log entry 5). -/
def decodeTableWord (nbits w : Nat) : Option Instr :=
  match tableCommand nbits w with
  | none => none
  | some cmd =>
    match decode cmd with
    | .command i => some i
    | .reserved _ => none

end Sys2Proof
end

