-- ==== Sys2Proof/Machine/Arith.lean ====
section
/-! DEFINITION. The arithmetic: end-around-carry reduction and one's-complement addition (00_scope.md R8, R9), and the closed
form the spec gives for both (40_accumulate.md R46). -/

namespace Sys2Proof.Machine

/-- The loop of `fold16` (R8), with a bound on its turns. -/
def foldLoop : Nat → Nat → Nat
  | 0, x => x % 65536
  | turns + 1, x => if x < 65536 then x else foldLoop turns (x % 65536 + x / 65536)

/-- `fold16(x)` (R8). Each turn makes `x` smaller, so `x` turns are enough (DEDUCED, log entry 8). -/
def fold16 (x : Nat) : Word := BitVec.ofNat 16 (foldLoop x x)

/-- `oc_add(a, b)` (R9): the 17-bit exact sum, its carry added back at bit 0. -/
def ocAdd (a b : Word) : Word :=
  let t : BitVec 17 := a.setWidth 17 + b.setWidth 17
  t.extractLsb' 0 16 + (t.extractLsb' 16 1).setWidth 16

/-- `ocsum(T)` (R46): 0 for 0, else the value in 1 to 0xFFFF that is congruent to `T` modulo 65535. -/
def ocsum (t : Nat) : Nat := if t = 0 then 0 else (t - 1) % 65535 + 1

end Sys2Proof.Machine
end

