-- ==== Sys2Proof/Machine/Operands.lean ====
section
/-! DEFINITION. Operand assembly (30_encoding.md R33) and the byte order of the stream (20_memory.md R21). -/

namespace Sys2Proof.Machine

/-- `w[15:8]`: the earlier of the two stream bytes of a word (R21, R33). -/
def highByte (w : Word) : Byte := w.extractLsb' 8 8

/-- `w[7:0]`: the later of the two stream bytes of a word (R21, R33). -/
def lowByte (w : Word) : Byte := w.extractLsb' 0 8

/-- `b0 ‖ b1`: the big-endian word of two consecutive stream bytes (R21). -/
def wordOf (b0 b1 : Byte) : Word := b0 ++ b1

/-- The pad byte of an odd-length stream (00_scope.md R5, P4; 20_memory.md R23). -/
def padByte : Byte := 0x00#8

/-- The verdict of VERIFY as a response: one bit, in bit 0 (30_encoding.md R32). -/
def verdictWord (valid : Bool) : Word := if valid then 0x0001#16 else 0x0000#16

end Sys2Proof.Machine
end

