-- ==== Sys2Proof/Machine/State.lean ====
section
/-! DEFINITION. The state of one CSUM16 instance (10_state.md R10), what the outside presents to it and what it has answered,
as plain data; the state after reset (R19); the reasons a step could stop with. -/

namespace Sys2Proof.Machine

/-- The complete architectural state of one instance: four registers, 26 bits (R10). -/
structure Block where
  /-- `SUM`, the accumulator: the folded one's-complement sum of every complete word absorbed (R11). -/
  sum : Word
  /-- `HOLD`, the first byte of a word whose second byte has not arrived (R12). -/
  hold : Byte
  /-- `ODD`, the phase: the absorbed stream has an odd number of bytes (R13). -/
  odd : Bool
  /-- `ERR`, the sticky fault flag (R14). -/
  err : Bool
deriving DecidableEq, Repr

/-- What reaches the block from outside, between commands (30_encoding.md R30; 70_reset_and_hazards.md R100). -/
inductive Event where
  /-- The host presents one command word. -/
  | command (w : Command)
  /-- The platform signals reset. -/
  | reset
deriving DecidableEq, Repr

/-- The machine: the block, and the model's own record of its one input and its one output. -/
structure State where
  /-- The block's registers (R10). -/
  block : Block
  /-- Events the outside has presented and the block has not taken yet, oldest first. The model's own field (log entry 1). -/
  pending : List Event
  /-- The responses returned so far, oldest first (R30, R109). The model's own field (log entry 2). -/
  responses : List Word
deriving DecidableEq, Repr

/-- Reasons for a fault outcome. There is none: the block's one exception, ReservedCommand, sets `ERR` and the block goes on
(60_exceptions.md R90, R91), so it is a next state (log entry 6); nothing raises a fault, which is safe. -/
inductive Fault where
deriving DecidableEq, Repr

/-- Reasons for a refusal. -/
inductive Refusal where
  /-- An instruction whose meaning the model does not have, raised by an arm of `exec` only; no arm raises it now. Safe. -/
  | notModelled (mnemonic : String)
deriving DecidableEq, Repr

/-- The registers after reset (R19). -/
def Block.reset : Block := { sum := 0x0000#16, hold := 0x00#8, odd := false, err := false }

/-- The machine right after reset (R19, R100), nothing presented and nothing answered (DESIGN CHOICE, log entries 1 and 2). -/
def State.reset : State := { block := Block.reset, pending := [], responses := [] }

end Sys2Proof.Machine
end

