-- ==== Sys2Proof/Machine/Ops.lean ====
section
/-! DEFINITION. The named operations on the block and on the machine: clearing, absorbing a byte or a word, the two result
functions, completing a transaction, taking the one exception, reset (the only way back from it), and presenting and taking
events. -/

namespace Sys2Proof.Machine

/-- Begin an empty absorbed stream; `ERR` is kept (40_accumulate.md R40). -/
def clearStream (k : Block) : Block := { k with sum := 0x0000#16, hold := 0x00#8, odd := false }

/-- Absorb one byte (40_accumulate.md R41). -/
def absorbByte (b : Byte) (k : Block) : Block :=
  if k.odd then { k with sum := ocAdd k.sum (wordOf k.hold b), hold := 0x00#8, odd := false }
  else { k with hold := b, odd := true }

/-- Absorb two bytes, high byte first: by definition two byte steps, at every phase (40_accumulate.md R42).
DEDUCED (log entry 7): where `ODD` is 0 and `HOLD` is not 0x00, which no run reaches, this is the definition and not the
written-out form. -/
def absorbWord (w : Word) (k : Block) : Block := absorbByte (lowByte w) (absorbByte (highByte w) k)

/-- The padded sum, a function of the state (41_readout.md R50). -/
def paddedSum (k : Block) : Word := if k.odd then ocAdd k.sum (wordOf k.hold padByte) else k.sum

/-- The final checksum, a function of the state (41_readout.md R51). -/
def csumFinal (k : Block) : Word :=
  let c := ~~~paddedSum k
  if c = 0x0000#16 then 0xFFFF#16 else c

/-- The verdict on a stored checksum (41_readout.md R54): the reserved zero is valid, anything else is compared. -/
def verdict (c : Word) (k : Block) : Bool := if c = 0x0000#16 then true else c == csumFinal k

/-- The reject action, the block's one exception (60_exceptions.md R90): `ERR` is set, nothing else is written, the response is
0x0000. Nothing is saved and control goes nowhere (R96). -/
def reject (k : Block) : Block × Word := ({ k with err := true }, 0x0000#16)

/-- End a transaction: the block's state is written and the response returned (30_encoding.md R30). -/
def complete (s : State) (r : Block × Word) : State := { s with block := r.1, responses := s.responses ++ [r.2] }

/-- TAKING THE EXCEPTION ReservedCommand (60_exceptions.md R90, R91, R96): a next state, in every state. -/
def takeReserved (s : State) : Host.Outcome State Fault Refusal := .next (complete s (reject s.block))

/-- RESET, the only way back to `ERR` = 0 (70_reset_and_hazards.md R100; 60_exceptions.md R96): every register takes its reset
value. Events not yet taken and responses already returned are the outside's, not the block's (log entry 4). -/
def takeReset (s : State) : Host.Outcome State Fault Refusal := .next { s with block := Block.reset }

/-- No event is pending: no transaction takes place and nothing changes (log entry 3). -/
def takeNothing (s : State) : Host.Outcome State Fault Refusal := .next s

/-- Take the oldest pending event, if there is one (30_encoding.md R30: one at a time, in the order issued). -/
def nextEvent (s : State) : Option (Event × State) :=
  match s.pending with
  | [] => none
  | e :: rest => some (e, { s with pending := rest })

/-- Put an event where the next step takes it. -/
def presentFirst (e : Event) (s : State) : State := { s with pending := e :: s.pending }

/-- Present a word of spec/opcode_table.json as the next command (log entry 5). Bits that make no command word present nothing. -/
def presentTableWord (s : State) (nbits w : Nat) : State :=
  match tableCommand nbits w with
  | none => s
  | some cmd => presentFirst (.command cmd) s

end Sys2Proof.Machine
end

