-- ==== Sys2Proof/Machine/Accumulate.lean ====
section
/-! DEFINITION. The accumulate family: CLR, ADDB, ADDW (40_accumulate.md). Each command is a function of the block and its operand
to the next block and the response (30_encoding.md R30), and its meaning completes that transaction. -/

namespace Sys2Proof.Machine

/-- CLR (R40): `SUM`, `HOLD`, `ODD` to zero, `ERR` kept, response 0x0000. -/
def clrEffect (k : Block) : Block × Word := (clearStream k, 0x0000#16)

/-- ADDB b (R41): one byte absorbed, response 0x0000. -/
def addbEffect (b : Byte) (k : Block) : Block × Word := (absorbByte b k, 0x0000#16)

/-- ADDW w (R42): two bytes absorbed, high byte first, response 0x0000. -/
def addwEffect (w : Word) (k : Block) : Block × Word := (absorbWord w k, 0x0000#16)

/-- The meaning of CLR (R40). -/
def execClr (s : State) : Host.Outcome State Fault Refusal := .next (complete s (clrEffect s.block))

/-- The meaning of ADDB (R41). -/
def execAddb (b : Byte) (s : State) : Host.Outcome State Fault Refusal := .next (complete s (addbEffect b s.block))

/-- The meaning of ADDW (R42). -/
def execAddw (w : Word) (s : State) : Host.Outcome State Fault Refusal := .next (complete s (addwEffect w s.block))

end Sys2Proof.Machine
end

