-- ==== Sys2Proof/Machine/Readout.lean ====
section
/-! DEFINITION. The readout family: RDSUM, RDCSUM, VERIFY (41_readout.md). They write no register (R55). -/

namespace Sys2Proof.Machine

/-- RDSUM (R52): the response is the padded sum. -/
def rdsumEffect (k : Block) : Block × Word := (k, paddedSum k)

/-- RDCSUM (R53): the response is the final checksum. -/
def rdcsumEffect (k : Block) : Block × Word := (k, csumFinal k)

/-- VERIFY c (R54): the response is the verdict on the stored checksum. -/
def verifyEffect (c : Word) (k : Block) : Block × Word := (k, verdictWord (verdict c k))

/-- The meaning of RDSUM (R52). -/
def execRdsum (s : State) : Host.Outcome State Fault Refusal := .next (complete s (rdsumEffect s.block))

/-- The meaning of RDCSUM (R53). -/
def execRdcsum (s : State) : Host.Outcome State Fault Refusal := .next (complete s (rdcsumEffect s.block))

/-- The meaning of VERIFY (R54). -/
def execVerify (c : Word) (s : State) : Host.Outcome State Fault Refusal := .next (complete s (verifyEffect c s.block))

end Sys2Proof.Machine
end

