-- ==== Sys2Proof/Machine/Flags.lean ====
section
/-! DEFINITION. The flags `ODD` and `ERR` as software sees them: the status word (10_state.md R18; 42_system.md R61). There is no
carry, zero or overflow flag (R11, R43). -/

namespace Sys2Proof.Machine

/-- One flag as a bit of the status word. -/
def flagBit (f : Bool) : BitVec 1 := BitVec.ofBool f

/-- The status word (R18): `HOLD` in 15:8, zeros in 7:2, `ERR` in 1, `ODD` in 0. -/
def statusWord (k : Block) : Word := (k.hold ++ 0#6 : BitVec 14) ++ (flagBit k.err ++ flagBit k.odd : BitVec 2)

end Sys2Proof.Machine
end

