-- ==== Sys2Proof/Machine/System.lean ====
section
/-! DEFINITION. The system family: NOP, RDST (42_system.md). -/

namespace Sys2Proof.Machine

/-- NOP (R60): no state is written, response 0x0000. -/
def nopEffect (k : Block) : Block × Word := (k, 0x0000#16)

/-- RDST (R61): the response is the status word; reading it does not clear `ERR`. -/
def rdstEffect (k : Block) : Block × Word := (k, statusWord k)

/-- The meaning of NOP (R60). -/
def execNop (s : State) : Host.Outcome State Fault Refusal := .next (complete s (nopEffect s.block))

/-- The meaning of RDST (R61). -/
def execRdst (s : State) : Host.Outcome State Fault Refusal := .next (complete s (rdstEffect s.block))

end Sys2Proof.Machine
end

