-- ==== Sys2Proof/Machine/Dispatch.lean ====
section
/-! DEFINITION. One arm per command (30_encoding.md R34), each one call of its meaning. -/

namespace Sys2Proof.Machine

def exec (i : Instr) (s : State) : Host.Outcome State Fault Refusal :=
  match i with
  | .nop => Sys2Proof.Machine.execNop s
  | .clr => Sys2Proof.Machine.execClr s
  | .addb b => Sys2Proof.Machine.execAddb b s
  | .addw w => Sys2Proof.Machine.execAddw w s
  | .rdsum => Sys2Proof.Machine.execRdsum s
  | .rdcsum => Sys2Proof.Machine.execRdcsum s
  | .verify c => Sys2Proof.Machine.execVerify c s
  | .rdst => Sys2Proof.Machine.execRdst s

end Sys2Proof.Machine
end

