-- ==== Sys2Proof/Machine/Step.lean ====
section
/-! DEFINITION. One step: the oldest pending event is taken and executed (30_encoding.md R30; 70_reset_and_hazards.md R100). -/

namespace Sys2Proof.Machine

/-- One step. A command word that decodes runs its command, a reserved word takes the exception (60_exceptions.md R90), a reset
resets, and with nothing pending nothing happens. -/
def step (s : State) : Host.Outcome State Fault Refusal :=
  match nextEvent s with
  | none => takeNothing s
  | some (.reset, t) => takeReset t
  | some (.command w, t) =>
    match decode w with
    | .command i => exec i t
    | .reserved _ => takeReserved t

/-- The state with a word of the opcode table presented as the next command: the host's side of one transaction (log entry 5). -/
def State.withFetchWord (s : State) (nbits w : Nat) : State := presentTableWord s nbits w

end Sys2Proof.Machine
end

