-- ==== Sys2Proof/Config.lean ====
section
/-! DEFINITION. What is fixed outside the block's state: the host-level constants of the spec, and the host-level points the
spec leaves open, which every function that depends on them takes as an argument (00_scope.md R5: P9, P10;
93_implementation_defined.md U3, U6). The block itself has no parameter and no free value: nothing about it is configurable
(10_state.md R18) and no encoding's behaviour is left undefined (30_encoding.md R35). -/

namespace Sys2Proof

/-- `MAX_PAYLOAD`, the payload cap in bytes (R5, P9; 43_segment_host.md R88; 90_conflicts.md C1). -/
def maxPayload : Nat := 65507

/-- The size of a segment's header in bytes (20_memory.md R26). -/
def headerBytes : Nat := 8

/-- What the source leaves open about the framer. A statement holds for every value of it.
DESIGN CHOICE (log entry 10): the order of two applicable errors is a parameter, one of the two forms U3 offers. -/
structure FramerConfig where
  /-- `DECODE_PAYLOAD_CAP` (R5, P10; 92_eei_decisions.md D20; 90_conflicts.md C4): does Deserialize enforce the cap? -/
  decodePayloadCap : Bool
  /-- U3: Construct with a bad port and an oversize payload answers InvalidPort (true) or PayloadTooLarge (false). -/
  portErrorFirst : Bool
  /-- U3: Deserialize with an oversize payload and a wrong length answers PayloadTooLarge (true) or LengthMismatch (false). -/
  capErrorFirst : Bool
deriving DecidableEq, Repr

end Sys2Proof
end

