-- ==== Sys2Proof/WellFormed.lean ====
section
/-! DEFINITION. Source lines of the assembler (30_encoding.md R37, R38) with their operands as written numbers, and the check
that every operand is in range. "An operand out of range ... is an assembly error, not a reserved word" (R37). -/

namespace Sys2Proof

/-- One line of assembler source, its operands as the numbers written (R37), the two pseudo-instructions among them (R38). -/
inductive AsmLine where
  | nop
  | clr
  | addb (v : Nat)
  | addw (v : Nat)
  | rdsum
  | rdcsum
  | verify (v : Nat)
  | rdst
  /-- `.word`, a raw command word, the way to write a reserved word on purpose. -/
  | raw (v : Nat)
  /-- `ADDS b0 b1 ...` -/
  | adds (bs : List Nat)
  /-- `ADDHDR sp, dp, len` -/
  | addhdr (sp dp len : Nat)
deriving DecidableEq, Repr

/-- Every operand fits the field it is written for (R37, R38). -/
def AsmLine.wellFormed : AsmLine → Bool
  | .nop | .clr | .rdsum | .rdcsum | .rdst => true
  | .addb v => v < 256
  | .addw v => v < 65536
  | .verify v => v < 65536
  | .raw v => v < 1048576
  | .adds bs => bs.all (· < 256)
  | .addhdr sp dp len => sp < 65536 && dp < 65536 && len < 65536

end Sys2Proof
end

