-- ==== Sys2Proof/Machine/Assembler.lean ====
section
/-! DEFINITION. The assembler: the pseudo-instructions (30_encoding.md R38), the assembly of a source line with its range check, and
the written form of a line (R37). Text is a list of characters. What R37 leaves open about the text is log entry 13. -/

namespace Sys2Proof.Machine

/-- `ADDS` (R38): one `ADDW` for each complete pair from the left, then one `ADDB` when a byte is left over. -/
def expandAdds : List Byte → List Instr
  | b0 :: b1 :: rest => .addw (wordOf b0 b1) :: expandAdds rest
  | [b] => [.addb b]
  | [] => []

/-- `ADDHDR sp, dp, len` (R38): four `ADDW`, the last of the zero checksum field. -/
def expandAddhdr (sp dp len : Word) : List Instr := [.addw sp, .addw dp, .addw len, .addw 0x0000#16]

/-- What the assembler rejects. -/
inductive AsmError where
  /-- An operand outside its range (R37). -/
  | operandOutOfRange
  /-- A word that is no mnemonic of R34 or R38. -/
  | unknownMnemonic
  /-- The wrong number or form of operands for the mnemonic (R37). -/
  | badOperands
deriving DecidableEq, Repr

/-- The command words of a line whose operands are in range (R37, R38). -/
def assembledWords : AsmLine → List Command
  | .nop => [encode .nop]
  | .clr => [encode .clr]
  | .addb v => [encode (.addb (BitVec.ofNat 8 v))]
  | .addw v => [encode (.addw (BitVec.ofNat 16 v))]
  | .rdsum => [encode .rdsum]
  | .rdcsum => [encode .rdcsum]
  | .verify v => [encode (.verify (BitVec.ofNat 16 v))]
  | .rdst => [encode .rdst]
  | .raw v => [BitVec.ofNat 20 v]
  | .adds bs => (expandAdds (bs.map (BitVec.ofNat 8))).map encode
  | .addhdr sp dp len => (expandAddhdr (BitVec.ofNat 16 sp) (BitVec.ofNat 16 dp) (BitVec.ofNat 16 len)).map encode

/-- Assemble one line: an operand out of range is an assembly error (R37). -/
def assemble (l : AsmLine) : Except AsmError (List Command) :=
  if l.wellFormed then .ok (assembledWords l) else .error .operandOutOfRange

/-- The text before the comment sign (R37). -/
def dropComment (line : List Char) : List Char := line.takeWhile (· != ';')

/-- White space between the parts of a line. -/
def isBlank (c : Char) : Bool := c == ' ' || c == '\t' || c == '\r'

/-- A word read so far, its characters last first, put before the words after it. -/
def closeToken (cur : List Char) (rest : List (List Char)) : List (List Char) :=
  if cur.isEmpty then rest else cur.reverse :: rest

/-- The words of a line: split at white space, each comma a word of its own. `cur` is the word being read, last character first. -/
def tokens (cur : List Char) : List Char → List (List Char)
  | [] => closeToken cur []
  | c :: cs =>
    if isBlank c then closeToken cur (tokens [] cs)
    else if c == ',' then closeToken cur ([','] :: tokens [] cs)
    else tokens (c :: cur) cs

/-- The value of a digit within one run of consecutive characters: `count` of them from `first` on, the first worth `value`. -/
def digitInRun (first : Char) (count value : Nat) (c : Char) : Option Nat :=
  let place := c.toNat - first.toNat
  if first.toNat ≤ c.toNat ∧ place < count then some (value + place) else none

/-- A decimal digit (R37). -/
def decDigit : Char → Option Nat := digitInRun '0' 10 0

/-- A hexadecimal digit (R37), in either letter case (DESIGN CHOICE, log entry 13). -/
def hexDigit (c : Char) : Option Nat :=
  match decDigit c with
  | some v => some v
  | none => (digitInRun 'A' 6 10 c).or (digitInRun 'a' 6 10 c)

/-- The value of some digits in a base, most significant first, after the value `acc`. -/
def digitsValue (digit : Char → Option Nat) (base : Nat) : Nat → List Char → Option Nat
  | acc, [] => some acc
  | acc, c :: cs =>
    match digit c with
    | none => none
    | some d => digitsValue digit base (acc * base + d) cs

/-- A number as R37 writes it: hexadecimal with `0x` before it, or decimal. -/
def numberOf : List Char → Option Nat
  | [] => none
  | ['0', 'x'] => none
  | '0' :: 'x' :: ds => digitsValue hexDigit 16 0 ds
  | ds => digitsValue decDigit 10 0 ds

/-- The number of a `.word` line: `0x` and exactly five hexadecimal digits (R37). -/
def rawWordOf : List Char → Option Nat
  | ['0', 'x', a, b, c, d, e] => digitsValue hexDigit 16 0 [a, b, c, d, e]
  | _ => none

/-- All of some numbers, if each can be read. -/
def numbersOf : List (List Char) → Option (List Nat)
  | [] => some []
  | t :: ts =>
    match numberOf t, numbersOf ts with
    | some n, some ns => some (n :: ns)
    | _, _ => none

/-- A line without operands (form `Z`, R37). -/
def zeroOperands (l : AsmLine) : List (List Char) → Except AsmError AsmLine
  | [] => .ok l
  | _ => .error .badOperands

/-- A line with one number (forms `B` and `W`, R37). -/
def oneOperand (mk : Nat → AsmLine) : List (List Char) → Except AsmError AsmLine
  | [t] =>
    match numberOf t with
    | some v => .ok (mk v)
    | none => .error .badOperands
  | _ => .error .badOperands

/-- The operand of `.word` (R37). -/
def rawOperand : List (List Char) → Except AsmError AsmLine
  | [t] =>
    match rawWordOf t with
    | some v => .ok (.raw v)
    | none => .error .badOperands
  | _ => .error .badOperands

/-- The bytes of `ADDS`, separated by white space (R38). -/
def addsOperands (ts : List (List Char)) : Except AsmError AsmLine :=
  match numbersOf ts with
  | some bs => .ok (.adds bs)
  | none => .error .badOperands

/-- The three operands of `ADDHDR`, separated by commas (R38). -/
def addhdrOperands : List (List Char) → Except AsmError AsmLine
  | [sp, [','], dp, [','], len] =>
    match numberOf sp, numberOf dp, numberOf len with
    | some a, some b, some c => .ok (.addhdr a b c)
    | _, _, _ => .error .badOperands
  | _ => .error .badOperands

/-- A line's mnemonic and its operands (R37, R38). -/
def lineOf (m : List Char) (ts : List (List Char)) : Except AsmError AsmLine :=
  if m = ['N', 'O', 'P'] then zeroOperands .nop ts
  else if m = ['C', 'L', 'R'] then zeroOperands .clr ts
  else if m = ['A', 'D', 'D', 'B'] then oneOperand .addb ts
  else if m = ['A', 'D', 'D', 'W'] then oneOperand .addw ts
  else if m = ['R', 'D', 'S', 'U', 'M'] then zeroOperands .rdsum ts
  else if m = ['R', 'D', 'C', 'S', 'U', 'M'] then zeroOperands .rdcsum ts
  else if m = ['V', 'E', 'R', 'I', 'F', 'Y'] then oneOperand .verify ts
  else if m = ['R', 'D', 'S', 'T'] then zeroOperands .rdst ts
  else if m = ['.', 'w', 'o', 'r', 'd'] then rawOperand ts
  else if m = ['A', 'D', 'D', 'S'] then addsOperands ts
  else if m = ['A', 'D', 'D', 'H', 'D', 'R'] then addhdrOperands ts
  else .error .unknownMnemonic

/-- A written line: `none` for one with no command on it (R37). -/
def parseLine (line : List Char) : Except AsmError (Option AsmLine) :=
  match tokens [] (dropComment line) with
  | [] => .ok none
  | m :: ts =>
    match lineOf m ts with
    | .ok l => .ok (some l)
    | .error e => .error e

/-- The command words of a written line (R37, R38). -/
def assembleText (line : List Char) : Except AsmError (List Command) :=
  match parseLine line with
  | .error e => .error e
  | .ok none => .ok []
  | .ok (some l) => assemble l

/-- The command words of a program, one written line after another (R37, R109), or the first line's error. -/
def assembleProgram : List (List Char) → Except AsmError (List Command)
  | [] => .ok []
  | line :: rest =>
    match assembleText line with
    | .error e => .error e
    | .ok ws =>
      match assembleProgram rest with
      | .error e => .error e
      | .ok more => .ok (ws ++ more)

end Sys2Proof.Machine
end

