-- ==== Sys2Proof/Machine/Transaction.lean ====
section
/-! DEFINITION. The block alone, as the spec writes it: `step : State × CMD -> State × RSP`, total on all 2^20 command words
(30_encoding.md R30), and a run, the left-to-right application of it (70_reset_and_hazards.md R109). The host procedures of
Framer.lean drive the block through these; that `exec` and `step` do the same is proved in Laws/Exec.lean. -/

namespace Sys2Proof.Machine

/-- A command as a function from the block to the next block and the response (R30). -/
def effect (i : Instr) (k : Block) : Block × Word :=
  match i with
  | .nop => nopEffect k
  | .clr => clrEffect k
  | .addb b => addbEffect b k
  | .addw w => addwEffect w k
  | .rdsum => rdsumEffect k
  | .rdcsum => rdcsumEffect k
  | .verify c => verifyEffect c k
  | .rdst => rdstEffect k

/-- One transaction on one command word (R30): the command it decodes to, or the reject action (60_exceptions.md R90). -/
def transact (w : Command) (k : Block) : Block × Word :=
  match decode w with
  | .command i => effect i k
  | .reserved _ => reject k

/-- A run (R109): the words applied left to right, the block after the last and every response, in order. -/
def runCommands : List Command → Block → Block × List Word
  | [], k => (k, [])
  | w :: ws, k =>
    ((runCommands ws (transact w k).1).1, (transact w k).2 :: (runCommands ws (transact w k).1).2)

end Sys2Proof.Machine
end

