-- ==== Sys2Proof/Machine/Framer.lean ====
section
/-! DEFINITION. The host procedures over the block (43_segment_host.md R70 to R77): the Segment record and Construct,
ComputeChecksum, Serialize, Deserialize, IsChecksumValid, each issuing the command words the spec gives to a block it has to
itself (70_reset_and_hazards.md R103; log entry 11). They are software: no state of the block belongs to them. -/

namespace Sys2Proof.Machine

/-- A Segment (R70): an immutable value; there is no setter (R77). -/
structure Segment where
  sourcePort : Word
  destinationPort : Word
  payload : List Byte
  /-- Derived, never set on its own: `8 + len(payload)` in every Segment the procedures return (R70, R80; log entry 15). -/
  length : Word
  /-- Unset in a freshly constructed Segment (R70, 90_conflicts.md C5). -/
  checksum : Option Word
  /-- Present on a decoded Segment only (R70). -/
  isValid : Option Bool
deriving DecidableEq, Repr

/-- The framer's error kinds, complete; they carry nothing (60_exceptions.md R93). -/
inductive FramerError where
  /-- Construct: a port outside 0 to 65535. -/
  | invalidPort
  /-- Construct, and Deserialize when the cap is enforced: a payload over 65507 bytes. -/
  | payloadTooLarge
  /-- Deserialize: fewer than 8 bytes. -/
  | truncatedHeader
  /-- Deserialize: the length field is not the number of bytes supplied. -/
  | lengthMismatch
deriving DecidableEq, Repr

/-- What the host-level model gives no meaning to (93_implementation_defined.md U4). -/
inductive FramerRefusal where
  /-- IsChecksumValid on a Segment whose checksum is unset. -/
  | checksumUnset
deriving DecidableEq, Repr

/-- A port within 0 to 65535 (R71). -/
abbrev PortInRange (p : Int) : Prop := 0 ≤ p ∧ p ≤ 65535

/-- The payload is within `MAX_PAYLOAD` (00_scope.md R5, P9; R88). -/
abbrev WithinCap (payload : List Byte) : Prop := payload.length ≤ maxPayload

/-- The Segment Construct builds: `length` is `8 + len(payload)`, `checksum` is left unset (R71). -/
def newSegment (sp dp : Int) (payload : List Byte) : Segment :=
  { sourcePort := BitVec.ofInt 16 sp, destinationPort := BitVec.ofInt 16 dp, payload := payload
    length := BitVec.ofNat 16 (headerBytes + payload.length), checksum := none, isValid := none }

/-- Construct (R71). Ports are unbounded integers here, so that InvalidPort can occur. Where both errors apply, either (U3). -/
def construct (cfg : FramerConfig) (sp dp : Int) (payload : List Byte) : Except FramerError Segment :=
  if PortInRange sp ∧ PortInRange dp then
    if WithinCap payload then .ok (newSegment sp dp payload) else .error .payloadTooLarge
  else if WithinCap payload then .error .invalidPort
  else .error (if cfg.portErrorFirst then .invalidPort else .payloadTooLarge)

/-- The two bytes of a 16-bit field, big-endian (20_memory.md R26). -/
def fieldBytes (w : Word) : List Byte := [highByte w, lowByte w]

/-- The bytes of a segment in the wire format, with `c` in the checksum field (20_memory.md R26; R74). -/
def wireBytes (s : Segment) (c : Word) : List Byte :=
  fieldBytes s.sourcePort ++ fieldBytes s.destinationPort ++ fieldBytes s.length ++ fieldBytes c ++ s.payload

/-- `CB(s)`, the checksummed byte sequence: the checksum field is zero whatever the segment holds (R72). -/
def checksumBytes (s : Segment) : List Byte := wireBytes s 0x0000#16

/-- The commands that feed a segment to the block (R73, R76). -/
def feedCommands (s : Segment) : List Instr :=
  .clr :: (expandAddhdr s.sourcePort s.destinationPort s.length ++ expandAdds s.payload)

/-- Issue some commands and take the last response (R73, R76). -/
def issue (is : List Instr) (k : Block) : Word × Block :=
  ((runCommands (is.map encode) k).2.getLastD 0x0000#16, (runCommands (is.map encode) k).1)

/-- ComputeChecksum (R73): the response, and the block it leaves. -/
def computeChecksum (s : Segment) (k : Block) : Word × Block := issue (feedCommands s ++ [.rdcsum]) k

/-- What Serialize returns: the bytes and the checksum together, the Segment unchanged (R74, 90_conflicts.md C2). -/
def serialize (s : Segment) (k : Block) : (List Byte × Word) × Block :=
  ((wireBytes s (computeChecksum s k).1, (computeChecksum s k).1), (computeChecksum s k).2)

/-- The command sequence of IsChecksumValid, for a stored checksum (R76). R76 lets the host skip the sequence for a stored 0x0000,
with the same result; this host issues it always, so the block it leaves is always the fed one (DESIGN CHOICE, log entry 16). -/
def checkStored (s : Segment) (c : Word) (k : Block) : Bool × Block :=
  ((issue (feedCommands s ++ [.verify c]) k).1 == 0x0001#16, (issue (feedCommands s ++ [.verify c]) k).2)

/-- IsChecksumValid (R76): defined for a Segment whose checksum is set, refused for another (U4, log entry 12). -/
def isChecksumValid (s : Segment) (k : Block) : Except FramerRefusal (Bool × Block) :=
  match s.checksum with
  | none => .error .checksumUnset
  | some c => .ok (checkStored s c k)

/-- The Segment Deserialize builds from the header fields and the payload, before its validity is known (R75). -/
def decodedSegment (sp dp len c : Word) (payload : List Byte) : Segment :=
  { sourcePort := sp, destinationPort := dp, payload := payload, length := len, checksum := some c, isValid := none }

/-- A decoded Segment with `is_valid` set (R70, R75). -/
def withValidity (s : Segment) (valid : Bool) : Segment := { s with isValid := some valid }

/-- Deserialize on the header fields and the payload (R75): the length check, the cap where it is enforced, either error where
both apply (U3), else the Segment with its validity and the block the check leaves. -/
def deserializeFields (cfg : FramerConfig) (sp dp len c : Word) (payload : List Byte) (k : Block) :
    Except FramerError (Segment × Block) :=
  if cfg.decodePayloadCap = true ∧ ¬ WithinCap payload then
    if len.toNat = headerBytes + payload.length then .error .payloadTooLarge
    else .error (if cfg.capErrorFirst then .payloadTooLarge else .lengthMismatch)
  else if len.toNat = headerBytes + payload.length then
    .ok (withValidity (decodedSegment sp dp len c payload) (checkStored (decodedSegment sp dp len c payload) c k).1,
      (checkStored (decodedSegment sp dp len c payload) c k).2)
  else .error .lengthMismatch

/-- Deserialize (R75): fewer than 8 bytes is TruncatedHeader, before anything else; the four fields in header order, big-endian. -/
def deserialize (cfg : FramerConfig) (bytes : List Byte) (k : Block) : Except FramerError (Segment × Block) :=
  match bytes with
  | b0 :: b1 :: b2 :: b3 :: b4 :: b5 :: b6 :: b7 :: payload =>
    deserializeFields cfg (wordOf b0 b1) (wordOf b2 b3) (wordOf b4 b5) (wordOf b6 b7) payload k
  | _ => .error .truncatedHeader

end Sys2Proof.Machine
end

