-- ==== Sys2Proof/Machine/Stream.lean ====
section
/-! DEFINITION. The absorbed stream and the abstraction function of 10_state.md R15, the words of a stream (20_memory.md R21, R23,
R24), and the other ways of summing a stream that the spec proves equal to the block's (40_accumulate.md R46, R48, R49). -/

namespace Sys2Proof.Machine

/-- The absorbed stream after a command: `ADDW` contributes `ARG[15:8]` then `ARG[7:0]`, `CLR` empties it (R15, R40). -/
def absorbedBy (bytes : List Byte) (i : Instr) : List Byte :=
  match i with
  | .clr => []
  | .addb b => bytes ++ [b]
  | .addw w => bytes ++ [highByte w, lowByte w]
  | .nop | .rdsum | .rdcsum | .verify _ | .rdst => bytes

/-- The absorbed stream after a command word: a reserved word contributes nothing (R15). -/
def absorbedByWord (bytes : List Byte) (w : Command) : List Byte :=
  match decode w with
  | .command i => absorbedBy bytes i
  | .reserved _ => bytes

/-- The absorbed stream after a run of command words that began with `bytes` absorbed (R15). -/
def absorbed (bytes : List Byte) (ws : List Command) : List Byte := ws.foldl absorbedByWord bytes

/-- The word is reserved (30_encoding.md R35). -/
def isReserved (w : Command) : Bool :=
  match decode w with
  | .command _ => false
  | .reserved _ => true

/-- The complete words of a stream: the pairs counted from its start (20_memory.md R21, R24). -/
def completeWords : List Byte → List Word
  | b0 :: b1 :: rest => wordOf b0 b1 :: completeWords rest
  | _ => []

/-- The words of a stream after the zero pad of an odd one (20_memory.md R23). -/
def paddedWords : List Byte → List Word
  | b0 :: b1 :: rest => wordOf b0 b1 :: paddedWords rest
  | [b] => [wordOf b padByte]
  | [] => []

/-- The exact integer sum of some words (40_accumulate.md R46, R49). -/
def exactSum (ws : List Word) : Nat := (ws.map BitVec.toNat).sum

/-- The last byte of an odd stream, 0x00 for an even one (R15). -/
def heldByte (bytes : List Byte) : Byte := if bytes.length % 2 = 1 then bytes.getLastD 0x00#8 else 0x00#8

/-- The abstraction function (R15): the registers as a function of the absorbed stream, and `ERR` beside them. -/
def blockOf (bytes : List Byte) (err : Bool) : Block :=
  { sum := fold16 (exactSum (completeWords bytes)), hold := heldByte bytes, odd := bytes.length % 2 == 1, err := err }

/-- Words added one by one to a sum, the carry folded at every addition (40_accumulate.md R46, R49). -/
def foldPerAdd (s : Word) (ws : List Word) : Word := ws.foldl ocAdd s

/-- Some words added in some grouping (40_accumulate.md R46 item 3). -/
inductive Grouping where
  | word (w : Word)
  | add (l r : Grouping)
deriving DecidableEq, Repr

/-- The result of adding in that grouping with `oc_add` (R46). -/
def groupedSum : Grouping → Word
  | .word w => w
  | .add l r => ocAdd (groupedSum l) (groupedSum r)

/-- The words of a grouping, left to right (R46). -/
def groupedWords : Grouping → List Word
  | .word w => [w]
  | .add l r => groupedWords l ++ groupedWords r

/-- The other design of R48: each byte is added at once, in the high half at even phase and in the low half at odd phase. -/
def byteAtOnce : Word → Bool → List Byte → Word
  | s, _, [] => s
  | s, false, b :: rest => byteAtOnce (ocAdd s (wordOf b 0x00#8)) true rest
  | s, true, b :: rest => byteAtOnce (ocAdd s (wordOf 0x00#8 b)) false rest

/-- The stream with bit `j` of the byte at offset `i` flipped (41_readout.md R58). -/
def flipBit (bytes : List Byte) (i j : Nat) : List Byte := bytes.modify i (· ^^^ (1#8 <<< j))

end Sys2Proof.Machine
end

