-- ==== Sys2Proof/Safety.lean ====
section
/-! DEFINITION. What counts as a good state: no fault recorded (60_exceptions.md R92), an acceptable end of a run
(70_reset_and_hazards.md R109), the phase invariant (10_state.md R12, R15), and when two blocks have the same future (R103). -/

namespace Sys2Proof.Machine

/-- A faulted state: a reserved word has been received since reset (R92). -/
abbrev Faulted (s : State) : Prop := s.block.err = true

/-- The end state of a run is acceptable: the sequence is exhausted and no fault is recorded (R109, R92). -/
abbrev AcceptableEnd (s : State) : Prop := s.pending = [] ∧ ¬ Faulted s

/-- `HOLD` is 0x00 whenever `ODD` is 0 (R12, R15). -/
abbrev PhaseInv (k : Block) : Prop := k.odd = false → k.hold = 0x00#8

/-- Two blocks that a host can tell apart through `RDST` bits 15:8 only (R103). -/
abbrev SameFuture (k k' : Block) : Prop :=
  k.odd = k'.odd ∧ k.err = k'.err ∧ paddedSum k = paddedSum k' ∧ PhaseInv k ∧ PhaseInv k'

/-- The command reads the block and writes no register of it (20_memory.md R25; 41_readout.md R55). -/
def isRead : Instr → Bool
  | .nop | .rdsum | .rdcsum | .verify _ | .rdst => true
  | .clr | .addb _ | .addw _ => false

end Sys2Proof.Machine
end

