-- ==== Sys2Proof/Certificates/Slice0/Obligations.lean ====
section
/-! DEFINITION. The statements for the provers, from the numbered rules of spec/: encoding, arithmetic, the state and its
invariants, each command, the readout laws, the assembler and the host procedures.

How a statement writes the interface of R30: the command word presented is the head of `pending` and the response returned is the
last of `responses`. That these are two lists of State is the model's choice (log entries 1 and 2); what a rule says of `CMD`, of
`RSP` and of the four registers is said of them, and nothing a rule does not say is claimed of the lists but that a command takes
its own word and appends its own response. CSUM16 has no memory (R20), so no frame speaks of one. -/

open Sys2Proof Sys2Proof.Machine

/-! ### Encoding -/

/-- R39 (with the words of R31 and R34): which words decode to each command, that every other word is reserved, and that encode
and decode are inverse. Decode takes the word alone, so it cannot depend on the state. -/
def Obligations.DecodeEncodeAgree : Prop :=
  (∀ w : Command,
    (decode w = .command .nop ↔ w.toNat = 0x00000) ∧
    (decode w = .command .clr ↔ w.toNat = 0x10000) ∧
    (∀ b : Byte, decode w = .command (.addb b) ↔ w.toNat = 0x20000 + b.toNat) ∧
    (∀ v : Word, decode w = .command (.addw v) ↔ w.toNat = 0x30000 + v.toNat) ∧
    (decode w = .command .rdsum ↔ w.toNat = 0x40000) ∧
    (decode w = .command .rdcsum ↔ w.toNat = 0x50000) ∧
    (∀ c : Word, decode w = .command (.verify c) ↔ w.toNat = 0x60000 + c.toNat) ∧
    (decode w = .command .rdst ↔ w.toNat = 0x70000) ∧
    ((∃ r, decode w = .reserved r) ↔ ∀ i, decode w ≠ .command i)) ∧
  (∀ i, decode (encode i) = .command i) ∧
  (∀ w i, decode w = .command i → encode i = w)

/-- R34: a word is a command exactly when its row's mask and match select it; the rows are disjoint; together they select 131333
words; the reserved opcodes 0x8 to 0xF take 524288 words; the all-zero word is NOP. -/
def Obligations.OpcodeMapSelects : Prop :=
  (∀ w : Command,
    (w &&& 0xFFFFF#20 = 0x00000#20 ↔ decode w = .command .nop) ∧
    (w &&& 0xFFFFF#20 = 0x10000#20 ↔ decode w = .command .clr) ∧
    (w &&& 0xFFF00#20 = 0x20000#20 ↔ ∃ b, decode w = .command (.addb b)) ∧
    (w &&& 0xF0000#20 = 0x30000#20 ↔ ∃ v, decode w = .command (.addw v)) ∧
    (w &&& 0xFFFFF#20 = 0x40000#20 ↔ decode w = .command .rdsum) ∧
    (w &&& 0xFFFFF#20 = 0x50000#20 ↔ decode w = .command .rdcsum) ∧
    (w &&& 0xF0000#20 = 0x60000#20 ↔ ∃ c, decode w = .command (.verify c)) ∧
    (w &&& 0xFFFFF#20 = 0x70000#20 ↔ decode w = .command .rdst) ∧
    (0x8#4 ≤ w.extractLsb' 16 4 ↔ decode w = .reserved .opcode)) ∧
  opcodeMap.Pairwise (fun r r' => ∀ w, ¬ (r.selects w = true ∧ r'.selects w = true)) ∧
  Nat.card { w : Command // ∃ i, decode w = .command i } = 131333 ∧
  Nat.card { w : Command // decode w = .reserved .opcode } = 524288

/-- R35: the two kinds of reserved words and their numbers, and that every one of them is executed as the reject action. -/
def Obligations.ReservedWordKinds : Prop :=
  (∀ w : Command, (∃ i, decode w = .command i) ∨ decode w = .reserved .opcode ∨ decode w = .reserved .argument) ∧
  (∀ w : Command, decode w = .reserved .opcode ↔ 8 ≤ w.toNat / 65536) ∧
  (∀ w : Command, decode w = .reserved .argument ↔
    ((w.toNat / 65536 = 0 ∨ w.toNat / 65536 = 1 ∨ w.toNat / 65536 = 4 ∨ w.toNat / 65536 = 5 ∨ w.toNat / 65536 = 7) ∧
      w.toNat % 65536 ≠ 0) ∨
    (w.toNat / 65536 = 2 ∧ w.toNat % 65536 / 256 ≠ 0)) ∧
  Nat.card { w : Command // decode w = .reserved .opcode } = 524288 ∧
  Nat.card { w : Command // decode w = .reserved .argument } = 5 * 65535 + 65280 ∧
  Nat.card { w : Command // ∃ r, decode w = .reserved r } = 917243 ∧
  (∀ (s : State) (w : Command) (rest : List Event) (r : Reserved),
    s.pending = .command w :: rest → decode w = .reserved r →
    step s = .next { block := { s.block with err := true }, pending := rest, responses := s.responses ++ [0x0000#16] })

/-- Words written out from the encodings of R31, R34 and R37 and the table V8 decode to what they stand for. -/
def Obligations.SampleWordsDecode : Prop :=
  decode 0x10000#20 = .command .clr ∧ decode 0x20063#20 = .command (.addb 0x63#8) ∧
  decode 0x33039#20 = .command (.addw 0x3039#16) ∧ decode 0x40000#20 = .command .rdsum ∧
  decode 0x50000#20 = .command .rdcsum ∧ decode 0x66703#20 = .command (.verify 0x6703#16) ∧
  decode 0x70000#20 = .command .rdst ∧ decode 0x00000#20 = .command .nop ∧
  decode 0x20100#20 = .reserved .argument ∧ decode 0x80000#20 = .reserved .opcode

/-! ### Arithmetic -/

/-- R8: `fold16` is the loop "while x >= 0x10000: x <- x[15:0] + (x >> 16)", then "return x[15:0]". -/
def Obligations.Fold16IsTheLoop : Prop :=
  ∀ x : Nat,
    (x < 0x10000 → fold16 x = BitVec.ofNat 16 x) ∧
    (0x10000 ≤ x → fold16 x = fold16 (x % 0x10000 + x / 0x10000))

/-- R9: `oc_add` is the low 16 bits of the exact sum plus its carry; it equals `fold16` of the sum, whose loop runs at most once. -/
def Obligations.OcAddIsFoldedSum : Prop :=
  ∀ a b : Word,
    (ocAdd a b).toNat = (a.toNat + b.toNat) % 0x10000 + (a.toNat + b.toNat) / 0x10000 ∧
    ocAdd a b = fold16 (a.toNat + b.toNat) ∧
    (0x10000 ≤ a.toNat + b.toNat → (a.toNat + b.toNat) % 0x10000 ≤ 0xFFFE) ∧
    (a.toNat + b.toNat) % 0x10000 + (a.toNat + b.toNat) / 0x10000 < 0x10000

/-- R44. -/
def Obligations.OcAddCommutes : Prop := ∀ a b : Word, ocAdd a b = ocAdd b a

/-- R45: 0x0000 is the identity, 0xFFFF acts as a second zero on every value but 0x0000, and a value plus its complement is 0xFFFF. -/
def Obligations.OcAddZeros : Prop :=
  (∀ a : Word, ocAdd a 0x0000#16 = a) ∧
  (∀ a : Word, a ≠ 0x0000#16 → ocAdd a 0xFFFF#16 = a) ∧
  ocAdd 0x0000#16 0xFFFF#16 = 0xFFFF#16 ∧
  (∀ a : Word, ocAdd a (~~~a) = 0xFFFF#16)

/-- R46: what `ocsum` is; `fold16` and `oc_add` in closed form; words added in any order and any grouping. -/
def Obligations.OneComplementClosedForm : Prop :=
  ocsum 0 = 0 ∧
  (∀ t, t ≠ 0 → ocsum t = (t - 1) % 65535 + 1 ∧ 0x0001 ≤ ocsum t ∧ ocsum t ≤ 0xFFFF ∧ ocsum t % 65535 = t % 65535 ∧
    ∀ v, 0x0001 ≤ v → v ≤ 0xFFFF → v % 65535 = t % 65535 → v = ocsum t) ∧
  (∀ t, (fold16 t).toNat = ocsum t) ∧
  (∀ a b : Word, (ocAdd a b).toNat = ocsum (a.toNat + b.toNat)) ∧
  (∀ (g : Grouping) (ws : List Word), ws.Perm (groupedWords g) → (groupedSum g).toNat = ocsum (exactSum ws)) ∧
  (∀ a b c : Word, ocAdd (ocAdd a b) c = ocAdd a (ocAdd b c))

/-- R47: when `SUM` is zero, and when it is 0xFFFF, for the words absorbed by any run of command words from any absorbed stream. -/
def Obligations.SumZeroExactlyWhenAllWordsZero : Prop :=
  ∀ (bytes : List Byte) (err : Bool) (ws : List Command),
    ((runCommands ws (blockOf bytes err)).1.sum = 0x0000#16 ↔ ∀ w ∈ completeWords (absorbed bytes ws), w = 0x0000#16) ∧
    ((∃ w ∈ completeWords (absorbed bytes ws), w ≠ 0x0000#16) →
      0x0001 ≤ (runCommands ws (blockOf bytes err)).1.sum.toNat ∧
      ((runCommands ws (blockOf bytes err)).1.sum = 0xFFFF#16 ↔
        0 < exactSum (completeWords (absorbed bytes ws)) ∧ exactSum (completeWords (absorbed bytes ws)) % 65535 = 0))

/-- R48: the order of words does not matter, the half a byte falls in does, and a design that adds each byte at once holds the same
padded sum after every stream. -/
def Obligations.ByteSplitDesignsAgree : Prop :=
  (∀ (s : Word) (ws ws' : List Word), ws.Perm ws' → foldPerAdd s ws = foldPerAdd s ws') ∧
  (∃ b0 b1 : Byte, ∃ s : Word, ocAdd s (wordOf b0 b1) ≠ ocAdd s (wordOf b1 b0)) ∧
  (∀ s w : Word, ocAdd (ocAdd s (wordOf (highByte w) 0x00#8)) (wordOf 0x00#8 (lowByte w)) = ocAdd s w) ∧
  (∀ (bytes : List Byte) (err : Bool), byteAtOnce 0x0000#16 false bytes = paddedSum (blockOf bytes err))

/-- R49: an accumulator that never overflows and is folded once gives the same `SUM` as folding at every addition, and 32 bits are
wide enough for the largest segment. -/
def Obligations.WideAccumulationAgrees : Prop :=
  (∀ ws : List Word, foldPerAdd 0x0000#16 ws = fold16 (exactSum ws)) ∧
  (∀ (ws : List Command) (err : Bool),
    (runCommands ws (blockOf [] err)).1.sum = foldPerAdd 0x0000#16 (completeWords (absorbed [] ws)) ∧
    (runCommands ws (blockOf [] err)).1.sum = fold16 (exactSum (completeWords (absorbed [] ws)))) ∧
  (∀ bytes : List Byte, bytes.length ≤ 65515 → exactSum (paddedWords bytes) < 2 ^ 31)

/-! ### State, reset and the machine's invariants -/

/-- R19: every register after reset, and that it is the state CLR produces with `ERR` cleared as well. -/
def Obligations.ResetRegisters : Prop :=
  State.reset.block = { sum := 0x0000#16, hold := 0x00#8, odd := false, err := false } ∧
  ∀ k : Block, State.reset.block = { (clrEffect k).1 with err := false }

/-- R100: a reset, from every state, sets every register to its reset value. That events not yet taken and responses already
returned stay is the model's choice (log entry 4). -/
def Obligations.ResetEventResets : Prop :=
  ∀ (s : State) (rest : List Event), s.pending = .reset :: rest →
    step s = .next { block := { sum := 0x0000#16, hold := 0x00#8, odd := false, err := false }
                     pending := rest, responses := s.responses }

/-- R101: CLR and reset compared. -/
def Obligations.ClrComparedWithReset : Prop :=
  (∀ s : State, ∃ t u : State, exec .clr s = .next t ∧ takeReset s = .next u ∧
    t.block.sum = u.block.sum ∧ t.block.hold = u.block.hold ∧ t.block.odd = u.block.odd ∧
    t.block.err = s.block.err ∧ u.block.err = false ∧ (s.block.err = false → t.block = u.block))

/-- R30 (the decoded command runs; the event taken is the model's pending event, log entry 1). -/
def Obligations.StepRunsDecodedCommand : Prop :=
  ∀ (s : State) (w : Command) (rest : List Event) (i : Instr),
    s.pending = .command w :: rest → decode w = .command i → step s = exec i { s with pending := rest }

/-- With nothing pending, nothing changes: the model's choice (log entry 3). -/
def Obligations.StepIdles : Prop := ∀ s : State, s.pending = [] → step s = .next s

/-- R90: the reject action, from every state; a second reserved word changes no register. -/
def Obligations.ReservedWordSetsErrOnly : Prop :=
  ∀ (s : State) (w : Command) (rest : List Event),
    s.pending = .command w :: rest → (∀ i, decode w ≠ .command i) →
    ∃ t : State, step s = .next t ∧ t.block.err = true ∧ t.block.sum = s.block.sum ∧ t.block.hold = s.block.hold ∧
      t.block.odd = s.block.odd ∧ t.pending = rest ∧ t.responses = s.responses ++ [0x0000#16] ∧
      (s.block.err = true → t.block = s.block)

/-- R30: one transaction per command word, total: a next state in every state, the word consumed and exactly one response returned
(none for a reset, and nothing at all with nothing pending: the model's choice, log entries 3 and 4). -/
def Obligations.StepIsTotal : Prop :=
  ∀ s : State, ∃ t : State, step s = .next t ∧ t.pending = s.pending.tail ∧
    (∀ w rest, s.pending = .command w :: rest → ∃ r, t.responses = s.responses ++ [r] ∧ (t.block, r) = transact w s.block) ∧
    (∀ rest, s.pending = .reset :: rest → t.responses = s.responses) ∧ (s.pending = [] → t = s)

/-- R109 and R30: presenting a finite sequence of command words and taking as many steps is the left-to-right application of the
block's transaction, collecting the responses in order. -/
def Obligations.RunIsLeftToRight : Prop :=
  ∀ (ws : List Command) (s : State) (rest : List Event), s.pending = ws.map Event.command ++ rest →
    core.run ws.length s =
      .next { block := (runCommands ws s.block).1, pending := rest, responses := s.responses ++ (runCommands ws s.block).2 }

/-- R12: every step keeps `HOLD` at 0x00 whenever `ODD` is 0. -/
def Obligations.StepKeepsPhaseInv : Prop :=
  ∀ s t : State, PhaseInv s.block → step s = .next t → PhaseInv t.block

/-- R12, R19: the reset state satisfies the phase invariant. -/
def Obligations.ResetPhaseInv : Prop := PhaseInv State.reset.block

/-- R15: after any run, from any absorbed stream, the registers are the stated function of the absorbed stream; reset and CLR
establish it with the empty stream; `ODD` = 0 implies `HOLD` = 0x00. -/
def Obligations.AbsorbedStreamAbstraction : Prop :=
  (∀ (bytes : List Byte) (err : Bool),
    (blockOf bytes err).odd = decide (bytes.length % 2 = 1) ∧
    (bytes.length % 2 = 1 → bytes.getLast? = some (blockOf bytes err).hold) ∧
    (bytes.length % 2 = 0 → (blockOf bytes err).hold = 0x00#8) ∧
    (blockOf bytes err).sum = fold16 (exactSum (completeWords bytes)) ∧
    PhaseInv (blockOf bytes err)) ∧
  State.reset.block = blockOf [] false ∧
  (∀ k : Block, (clrEffect k).1 = blockOf [] k.err) ∧
  (∀ (ws : List Command) (bytes : List Byte) (err : Bool),
    (runCommands ws (blockOf bytes err)).1 = blockOf (absorbed bytes ws) (err || ws.any isReserved)) ∧
  (∀ (bytes bytes' : List Byte) (err : Bool) (ws : List Command),
    (blockOf bytes err).sum = (blockOf bytes' err).sum → (blockOf bytes err).hold = (blockOf bytes' err).hold →
    (blockOf bytes err).odd = (blockOf bytes' err).odd →
    (runCommands ws (blockOf bytes err)).2 = (runCommands ws (blockOf bytes' err)).2)

/-- R14: `ERR` is set exactly by reserved words and cleared exactly by reset, over every step of the machine. -/
def Obligations.ErrIsSticky : Prop :=
  ∀ s t : State, step s = .next t →
    ((∃ rest, s.pending = .reset :: rest) → ¬ Faulted t) ∧
    ((∀ rest, s.pending ≠ .reset :: rest) →
      (Faulted t ↔ Faulted s ∨ ∃ w rest r, s.pending = .command w :: rest ∧ decode w = .reserved r))

/-- R14: `ERR` gates nothing: with it set every command has the same effect and the same response, but for bit 1 of the status word. -/
def Obligations.ErrDoesNotGate : Prop :=
  ∀ (i : Instr) (s : State) (err : Bool), ∃ t u : State, ∃ r r' : Word,
    exec i s = .next t ∧ exec i { s with block := { s.block with err := err } } = .next u ∧
    u.block = { t.block with err := err } ∧ u.pending = t.pending ∧
    t.responses = s.responses ++ [r] ∧ u.responses = s.responses ++ [r'] ∧
    (i ≠ .rdst → r' = r) ∧ ∀ n, n ≠ 1 → r'.getLsbD n = r.getLsbD n

/-! ### The commands: encoding, effect, and the words beside the encoding -/

/-- R60: NOP. -/
def Obligations.NopDoesNothing : Prop :=
  encode .nop = 0x00000#20 ∧
  (∀ s : State, exec .nop s = .next { block := s.block, pending := s.pending, responses := s.responses ++ [0x0000#16] }) ∧
  (∀ a : Word, a ≠ 0x0000#16 → decode (0x0#4 ++ a) = .reserved .argument)

/-- R40: CLR. -/
def Obligations.ClrStartsComputation : Prop :=
  encode .clr = 0x10000#20 ∧
  (∀ s : State, exec .clr s =
    .next { block := { sum := 0x0000#16, hold := 0x00#8, odd := false, err := s.block.err }
            pending := s.pending, responses := s.responses ++ [0x0000#16] }) ∧
  (∀ a : Word, a ≠ 0x0000#16 → decode (0x1#4 ++ a) = .reserved .argument) ∧
  (∀ (bytes : List Byte), absorbedBy bytes .clr = [])

/-- R41: ADDB, at even and at odd phase. -/
def Obligations.AddbAbsorbsByte : Prop :=
  (∀ b : Byte, (encode (.addb b)).toNat = 0x20000 + b.toNat) ∧
  (∀ (s : State) (b : Byte), s.block.odd = false → exec (.addb b) s =
    .next { block := { sum := s.block.sum, hold := b, odd := true, err := s.block.err }
            pending := s.pending, responses := s.responses ++ [0x0000#16] }) ∧
  (∀ (s : State) (b : Byte), s.block.odd = true → exec (.addb b) s =
    .next { block := { sum := ocAdd s.block.sum (s.block.hold ++ b), hold := 0x00#8, odd := false, err := s.block.err }
            pending := s.pending, responses := s.responses ++ [0x0000#16] }) ∧
  (∀ a : Word, a.extractLsb' 8 8 ≠ 0x00#8 → decode (0x2#4 ++ a) = .reserved .argument) ∧
  (∀ k : Block, k.odd = false → paddedSum (addbEffect 0x00#8 k).1 = paddedSum k) ∧
  (∀ k : Block, k.odd = true → k.hold = 0x00#8 → (addbEffect 0x00#8 k).1.sum = k.sum)

/-- R42: ADDW is ADDB of the high byte then ADDB of the low byte, as one command; the written-out form at both phases (at even phase
with `HOLD` 0x00, as R12 says it is). -/
def Obligations.AddwAbsorbsTwoBytes : Prop :=
  (∀ w : Word, (encode (.addw w)).toNat = 0x30000 + w.toNat) ∧
  (∀ (s : State) (w : Word), exec (.addw w) s =
    .next { block := (addbEffect (w.extractLsb' 0 8) (addbEffect (w.extractLsb' 8 8) s.block).1).1
            pending := s.pending, responses := s.responses ++ [0x0000#16] }) ∧
  (∀ (s : State) (w : Word), s.block.odd = false → PhaseInv s.block → exec (.addw w) s =
    .next { block := { sum := ocAdd s.block.sum w, hold := 0x00#8, odd := false, err := s.block.err }
            pending := s.pending, responses := s.responses ++ [0x0000#16] }) ∧
  (∀ (s : State) (w : Word), s.block.odd = true → exec (.addw w) s =
    .next { block := { sum := ocAdd s.block.sum (s.block.hold ++ w.extractLsb' 8 8 : BitVec 16)
                       hold := w.extractLsb' 0 8, odd := true, err := s.block.err }
            pending := s.pending, responses := s.responses ++ [0x0000#16] }) ∧
  (∀ w : Word, decode (0x3#4 ++ w) = .command (.addw w)) ∧
  (∀ k : Block, k.odd = false → PhaseInv k → (addwEffect 0x0000#16 k).1 = k) ∧
  (∀ k : Block, k.odd = false →
    (addwEffect 0xFFFF#16 k).1.sum = if k.sum = 0x0000#16 then 0xFFFF#16 else k.sum)

/-- R42, R24: on the machine, one ADDW leaves the registers that the two ADDB commands leave, at every phase. -/
def Obligations.AddwIsTwoAddb : Prop :=
  ∀ (w : Word) (k : Block),
    (runCommands [encode (.addw w)] k).1 = (runCommands [encode (.addb (highByte w)), encode (.addb (lowByte w))] k).1

/-- R52, with the padded sum of R50 written out: RDSUM. -/
def Obligations.RdsumReadsPaddedSum : Prop :=
  encode .rdsum = 0x40000#20 ∧
  (∀ s : State, exec .rdsum s =
    .next { block := s.block, pending := s.pending
            responses := s.responses ++ [if s.block.odd then ocAdd s.block.sum (s.block.hold ++ 0x00#8) else s.block.sum] }) ∧
  (∀ a : Word, a ≠ 0x0000#16 → decode (0x4#4 ++ a) = .reserved .argument) ∧
  (∀ k : Block, paddedSum (clrEffect k).1 = 0x0000#16) ∧ paddedSum State.reset.block = 0x0000#16 ∧
  (∃ k : Block, paddedSum k = 0xFFFF#16)

/-- R53, with the final checksum of R51 written out: RDCSUM. -/
def Obligations.RdcsumReadsFinalChecksum : Prop :=
  encode .rdcsum = 0x50000#20 ∧
  (∀ s : State, exec .rdcsum s =
    .next { block := s.block, pending := s.pending
            responses := s.responses ++
              [if paddedSum s.block = 0xFFFF#16 then 0xFFFF#16 else ~~~paddedSum s.block] }) ∧
  (∀ a : Word, a ≠ 0x0000#16 → decode (0x5#4 ++ a) = .reserved .argument) ∧
  (∀ k : Block, csumFinal k ≠ 0x0000#16 ∧
    (csumFinal k = 0xFFFF#16 ↔ paddedSum k = 0x0000#16 ∨ paddedSum k = 0xFFFF#16) ∧ csumFinal (clrEffect k).1 = 0xFFFF#16) ∧
  csumFinal State.reset.block = 0xFFFF#16

/-- R54: VERIFY, every argument. -/
def Obligations.VerifyComparesStored : Prop :=
  (∀ c : Word, (encode (.verify c)).toNat = 0x60000 + c.toNat) ∧
  (∀ (s : State) (c : Word), exec (.verify c) s =
    .next { block := s.block, pending := s.pending
            responses := s.responses ++
              [if c = 0x0000#16 then 0x0001#16 else if c = csumFinal s.block then 0x0001#16 else 0x0000#16] }) ∧
  (∀ c : Word, decode (0x6#4 ++ c) = .command (.verify c)) ∧
  (∀ k : Block, (effect (.verify 0xFFFF#16) k).2 = 0x0001#16 ↔ paddedSum k = 0x0000#16 ∨ paddedSum k = 0xFFFF#16)

/-- R61, with the status word of R18: RDST. -/
def Obligations.RdstReadsStatus : Prop :=
  encode .rdst = 0x70000#20 ∧
  (∀ s : State, ∃ r : Word,
    exec .rdst s = .next { block := s.block, pending := s.pending, responses := s.responses ++ [r] } ∧
    r.toNat = s.block.hold.toNat * 256 + s.block.err.toNat * 2 + s.block.odd.toNat ∧
    r.extractLsb' 8 8 = s.block.hold ∧ r.extractLsb' 2 6 = 0#6 ∧ r.getLsbD 1 = s.block.err ∧ r.getLsbD 0 = s.block.odd ∧
    (s.block.odd = false → PhaseInv s.block → r = 0x0000#16 ∨ r = 0x0002#16)) ∧
  (∀ a : Word, a ≠ 0x0000#16 → decode (0x7#4 ++ a) = .reserved .argument)

/-- Frame (R10's "written by" column, R40 to R42): what CLR, ADDB and ADDW leave unchanged. -/
def Obligations.AccumulateFrame : Prop :=
  ∀ (i : Instr) (s t : State), isRead i = false → exec i s = .next t →
    t.block.err = s.block.err ∧ t.pending = s.pending ∧ t.responses = s.responses ++ [0x0000#16] ∧
    ((∃ b, i = .addb b) → t.block.odd = !s.block.odd ∧ (s.block.odd = false → t.block.sum = s.block.sum)) ∧
    ((∃ w, i = .addw w) → t.block.odd = s.block.odd)

/-- Frame (R55, R60, R61, R25): NOP, RDSUM, RDCSUM, VERIFY and RDST write no register and take nothing from the pending events. -/
def Obligations.ReadFrame : Prop :=
  ∀ (i : Instr) (s t : State), isRead i = true → exec i s = .next t →
    t.block = s.block ∧ t.pending = s.pending ∧ ∃ r, t.responses = s.responses ++ [r]

/-! ### Laws of the readout -/

/-- R55: reads in any number and order between two runs change neither the registers nor a later response, and the same read
repeated answers the same. -/
def Obligations.ReadsArePure : Prop :=
  ∀ (before : List Command) (reads : List Instr) (later : List Command) (k : Block), (∀ i ∈ reads, isRead i = true) →
    (runCommands (before ++ reads.map encode ++ later) k).1 = (runCommands (before ++ later) k).1 ∧
    (runCommands (before ++ reads.map encode ++ later) k).2 =
      (runCommands before k).2 ++ reads.map (fun i => (effect i (runCommands before k).1).2) ++
        (runCommands later (runCommands before k).1).2 ∧
    (runCommands (before ++ later) k).2 = (runCommands before k).2 ++ (runCommands later (runCommands before k).1).2

/-- R50: the padded sum of a state, and of a stream: the sum of step 3 over the stream after the zero pad; at odd phase the `SUM`
after one more zero byte. -/
def Obligations.PaddedSumIsPaddedStream : Prop :=
  (∀ k : Block, (k.odd = false → paddedSum k = k.sum) ∧ (k.odd = true → paddedSum k = ocAdd k.sum (k.hold ++ 0x00#8)) ∧
    (k.odd = true → paddedSum k = (addbEffect 0x00#8 k).1.sum)) ∧
  (∀ (bytes : List Byte) (err : Bool), paddedSum (blockOf bytes err) = fold16 (exactSum (paddedWords bytes)))

/-- R51: steps 4 and 5; the replacement happens exactly when the padded sum is 0xFFFF. -/
def Obligations.FinalChecksumReplacement : Prop :=
  ∀ k : Block,
    (paddedSum k ≠ 0xFFFF#16 → (csumFinal k).toNat = 0xFFFF - (paddedSum k).toNat) ∧
    (paddedSum k = 0xFFFF#16 → csumFinal k = 0xFFFF#16) ∧
    (~~~paddedSum k = 0x0000#16 ↔ paddedSum k = 0xFFFF#16)

/-- R56: range and closed form of the final checksum of a stream. -/
def Obligations.FinalChecksumClosedForm : Prop :=
  (∀ (bytes : List Byte) (err : Bool),
    (csumFinal (blockOf bytes err)).toNat = 0xFFFF - exactSum (paddedWords bytes) % 65535 ∧
    csumFinal (blockOf bytes err) ≠ 0x0000#16 ∧
    (csumFinal (blockOf bytes err) = 0xFFFF#16 ↔ exactSum (paddedWords bytes) % 65535 = 0) ∧
    (exactSum (paddedWords bytes) % 65535 = 0 ↔
      paddedSum (blockOf bytes err) = 0x0000#16 ∨ paddedSum (blockOf bytes err) = 0xFFFF#16)) ∧
  (∀ c : Word, c ≠ 0x0000#16 → ∀ err, ∃ bytes : List Byte, csumFinal (blockOf bytes err) = c) ∧
  (∀ (bytes bytes' : List Byte) (err err' : Bool),
    csumFinal (blockOf bytes err) = csumFinal (blockOf bytes' err') ↔
      exactSum (paddedWords bytes) % 65535 = exactSum (paddedWords bytes') % 65535)

/-- R57: what VERIFY is equivalent to, `S` being the padded sum of the state; and that `oc_add(S, c)` is the padded sum of a block
fed the stored checksum in place of the zero field. -/
def Obligations.VerifyEquivalents : Prop :=
  (∀ (k : Block) (c : Word),
    ((effect (.verify c) k).2 = 0x0001#16 ↔
      c = 0x0000#16 ∨ (c = ~~~paddedSum k ∧ paddedSum k ≠ 0xFFFF#16) ∨ (c = 0xFFFF#16 ∧ paddedSum k = 0xFFFF#16)) ∧
    (c ≠ 0x0000#16 → ((effect (.verify c) k).2 = 0x0001#16 ↔ ocAdd (paddedSum k) c = 0xFFFF#16)) ∧
    (ocAdd (paddedSum k) 0x0000#16 = 0xFFFF#16 ↔ paddedSum k = 0xFFFF#16) ∧
    (effect (.verify 0x0000#16) k).2 = 0x0001#16) ∧
  (∀ (s : Segment) (c : Word) (err : Bool),
    paddedSum (blockOf (wireBytes s c) err) = ocAdd (paddedSum (blockOf (checksumBytes s) err)) c)

/-- R58: a stream and the same stream with one bit flipped have different final checksums, and VERIFY with the one answers 0x0000 on
the other. -/
def Obligations.SingleBitSensitivity : Prop :=
  ∀ (bytes : List Byte) (err : Bool) (i j : Nat), i < bytes.length → j < 8 →
    (flipBit bytes i j).length = bytes.length ∧
    (∃ n, n < 16 ∧ (exactSum (paddedWords (flipBit bytes i j)) = exactSum (paddedWords bytes) + 2 ^ n ∨
      exactSum (paddedWords bytes) = exactSum (paddedWords (flipBit bytes i j)) + 2 ^ n)) ∧
    exactSum (paddedWords (flipBit bytes i j)) % 65535 ≠ exactSum (paddedWords bytes) % 65535 ∧
    csumFinal (blockOf (flipBit bytes i j) err) ≠ csumFinal (blockOf bytes err) ∧
    (effect (.verify (csumFinal (blockOf bytes err))) (blockOf (flipBit bytes i j) err)).2 = 0x0000#16 ∧
    (effect (.verify (csumFinal (blockOf (flipBit bytes i j) err))) (blockOf bytes err)).2 = 0x0000#16

/-- R59: the verdict on one's own checksum. -/
def Obligations.VerifyOwnChecksum : Prop :=
  ∀ s : State, csumFinal s.block ≠ 0x0000#16 ∧ exec (.verify (csumFinal s.block)) s =
    .next { block := s.block, pending := s.pending, responses := s.responses ++ [0x0001#16] }

/-- R103: suspend the block `k` by reading its padded sum and phase, and resume later from whatever block `m` other computations have
left. At even phase the state is restored exactly; at odd phase the held byte is folded into `SUM`, and the two states have the same
future. `ERR` is `m`'s: no command clears it (R14). -/
def Obligations.SuspendAndResume : Prop :=
  ∀ k m : Block, PhaseInv k →
    (effect .rdsum k).2 = paddedSum k ∧ (effect .rdst k).2.getLsbD 0 = k.odd ∧
    (k.odd = false → (runCommands [encode .clr, encode (.addw (paddedSum k))] m).1 = { k with err := m.err }) ∧
    (k.odd = true → (runCommands [encode .clr, encode (.addw (paddedSum k)), encode (.addb 0x00#8)] m).1 =
      { sum := paddedSum k, hold := 0x00#8, odd := true, err := m.err }) ∧
    (k.odd = true → SameFuture k { sum := paddedSum k, hold := 0x00#8, odd := true, err := k.err })

/-- R103: two blocks of one phase, one `ERR` and one padded sum answer every later command word alike, but for bits 15:8 of RDST, and
keep that relation, over every run. -/
def Obligations.SameFutureIsIndistinguishable : Prop :=
  ∀ (k k' : Block) (ws : List Command), SameFuture k k' →
    SameFuture (runCommands ws k).1 (runCommands ws k').1 ∧
    ((∀ w ∈ ws, decode w ≠ .command .rdst) → (runCommands ws k).2 = (runCommands ws k').2) ∧
    (runCommands ws k).2.map lowByte = (runCommands ws k').2.map lowByte

/-! ### The assembler -/

/-- R38: ADDS and ADDHDR expand to command sequences that absorb the stated bytes, in order, at any starting phase. -/
def Obligations.PseudoInstructionsAbsorb : Prop :=
  (∀ (bs : List Byte) (k : Block),
    (runCommands ((expandAdds bs).map encode) k).1 = (runCommands (bs.map (fun b => encode (.addb b))) k).1) ∧
  (∀ bs bytes : List Byte, absorbed bytes ((expandAdds bs).map encode) = bytes ++ bs) ∧
  (∀ (b0 b1 : Byte) (rest : List Byte), expandAdds (b0 :: b1 :: rest) = .addw (b0 ++ b1) :: expandAdds rest) ∧
  (∀ b : Byte, expandAdds [b] = [.addb b]) ∧ expandAdds [] = [] ∧
  (∀ sp dp len : Word, expandAddhdr sp dp len = [.addw sp, .addw dp, .addw len, .addw 0x0000#16]) ∧
  (∀ (sp dp len : Word) (bytes : List Byte), absorbed bytes ((expandAddhdr sp dp len).map encode) =
    bytes ++ [highByte sp, lowByte sp, highByte dp, lowByte dp, highByte len, lowByte len, 0x00#8, 0x00#8]) ∧
  (∀ k : Block, k.odd = false → PhaseInv k → (effect (.addw 0x0000#16) k).1 = k)

/-- R37: an operand out of range is an assembly error, and one in range assembles to its command word. -/
def Obligations.AssemblerChecksRanges : Prop :=
  (∀ v, 0xFF < v → assemble (.addb v) = .error .operandOutOfRange) ∧
  (∀ v, 0xFFFF < v → assemble (.addw v) = .error .operandOutOfRange ∧ assemble (.verify v) = .error .operandOutOfRange) ∧
  (∀ b : Byte, assemble (.addb b.toNat) = .ok [encode (.addb b)]) ∧
  (∀ w : Word, assemble (.addw w.toNat) = .ok [encode (.addw w)] ∧ assemble (.verify w.toNat) = .ok [encode (.verify w)]) ∧
  (∀ w : Command, assemble (.raw w.toNat) = .ok [w]) ∧
  assemble .nop = .ok [encode .nop] ∧ assemble .clr = .ok [encode .clr] ∧ assemble .rdsum = .ok [encode .rdsum] ∧
  assemble .rdcsum = .ok [encode .rdcsum] ∧ assemble .rdst = .ok [encode .rdst]

/-! ### The host procedures -/

/-- R71: Construct, with either error where both apply (U3). -/
def Obligations.ConstructChecksInputs : Prop :=
  ∀ (cfg : FramerConfig) (sp dp : Int) (payload : List Byte),
    (0 ≤ sp → sp ≤ 65535 → 0 ≤ dp → dp ≤ 65535 → payload.length ≤ 65507 →
      ∃ s : Segment, construct cfg sp dp payload = .ok s ∧ (s.sourcePort.toNat : Int) = sp ∧ (s.destinationPort.toNat : Int) = dp ∧
        s.payload = payload ∧ s.length.toNat = 8 + payload.length ∧ s.checksum = none ∧ s.isValid = none) ∧
    (¬ (0 ≤ sp ∧ sp ≤ 65535 ∧ 0 ≤ dp ∧ dp ≤ 65535) → payload.length ≤ 65507 →
      construct cfg sp dp payload = .error .invalidPort) ∧
    (0 ≤ sp → sp ≤ 65535 → 0 ≤ dp → dp ≤ 65535 → 65507 < payload.length →
      construct cfg sp dp payload = .error .payloadTooLarge) ∧
    (¬ (0 ≤ sp ∧ sp ≤ 65535 ∧ 0 ≤ dp ∧ dp ≤ 65535) → 65507 < payload.length →
      construct cfg sp dp payload = .error .invalidPort ∨ construct cfg sp dp payload = .error .payloadTooLarge)

/-- R72: the checksummed byte sequence, whatever the segment's checksum holds. -/
def Obligations.ChecksummedBytes : Prop :=
  ∀ s : Segment,
    checksumBytes s =
      [s.sourcePort.extractLsb' 8 8, s.sourcePort.extractLsb' 0 8, s.destinationPort.extractLsb' 8 8,
       s.destinationPort.extractLsb' 0 8, s.length.extractLsb' 8 8, s.length.extractLsb' 0 8, 0x00#8, 0x00#8] ++ s.payload ∧
    (s.length.toNat = 8 + s.payload.length → (checksumBytes s).length = s.length.toNat) ∧
    (∀ c, checksumBytes { s with checksum := c } = checksumBytes s)

/-- R73: ComputeChecksum is the final checksum of the checksummed bytes, from any block and by any sequence that absorbs the same
bytes; it is never 0x0000. -/
def Obligations.ComputeChecksumIsFinalChecksum : Prop :=
  ∀ (s : Segment) (k : Block),
    (runCommands (List.map encode (Instr.clr :: .addw s.sourcePort :: .addw s.destinationPort :: .addw s.length :: .addw 0x0000#16 ::
      (expandAdds s.payload ++ [.rdcsum]))) k).2.getLast? = some (computeChecksum s k).1 ∧
    (computeChecksum s k).1 = csumFinal (blockOf (checksumBytes s) k.err) ∧
    (computeChecksum s k).1.toNat = 0xFFFF - exactSum (paddedWords (checksumBytes s)) % 65535 ∧
    (computeChecksum s k).1 ≠ 0x0000#16 ∧
    (computeChecksum s k).2 = blockOf (checksumBytes s) k.err ∧
    (∀ (bytes : List Byte) (err : Bool) (ws : List Command), absorbed bytes ws = checksumBytes s →
      (effect .rdcsum (runCommands ws (blockOf bytes err)).1).2 = (computeChecksum s k).1)

/-- R74: Serialize emits the checksummed bytes with the checksum in bytes 6 and 7, and no pad byte. -/
def Obligations.SerializeEmitsWireFormat : Prop :=
  ∀ (s : Segment) (k : Block),
    (serialize s k).1.2 = (computeChecksum s k).1 ∧
    (serialize s k).1.1 =
      ((checksumBytes s).set 6 (highByte (computeChecksum s k).1)).set 7 (lowByte (computeChecksum s k).1) ∧
    (s.length.toNat = 8 + s.payload.length → (serialize s k).1.1.length = s.length.toNat)

/-- R75: Deserialize: TruncatedHeader first, then the length and (where enforced) the cap, either error where both apply (U3);
otherwise the fields in header order and the validity of R76. -/
def Obligations.DeserializeReadsHeader : Prop :=
  ∀ (cfg : FramerConfig) (k : Block),
    (∀ bytes : List Byte, bytes.length < 8 → deserialize cfg bytes k = .error .truncatedHeader) ∧
    (∀ (sp dp len c : Word) (payload : List Byte),
      (len.toNat = 8 + payload.length → ¬ (cfg.decodePayloadCap = true ∧ 65507 < payload.length) →
        ∃ (s : Segment) (v : Bool) (k' : Block),
          deserialize cfg (fieldBytes sp ++ fieldBytes dp ++ fieldBytes len ++ fieldBytes c ++ payload) k = .ok (s, k') ∧
          s.sourcePort = sp ∧ s.destinationPort = dp ∧ s.length = len ∧ s.payload = payload ∧ s.checksum = some c ∧
          isChecksumValid s k = .ok (v, k') ∧ s.isValid = some v) ∧
      (len.toNat ≠ 8 + payload.length → ¬ (cfg.decodePayloadCap = true ∧ 65507 < payload.length) →
        deserialize cfg (fieldBytes sp ++ fieldBytes dp ++ fieldBytes len ++ fieldBytes c ++ payload) k = .error .lengthMismatch) ∧
      (len.toNat = 8 + payload.length → cfg.decodePayloadCap = true → 65507 < payload.length →
        deserialize cfg (fieldBytes sp ++ fieldBytes dp ++ fieldBytes len ++ fieldBytes c ++ payload) k = .error .payloadTooLarge) ∧
      (len.toNat ≠ 8 + payload.length → cfg.decodePayloadCap = true → 65507 < payload.length →
        deserialize cfg (fieldBytes sp ++ fieldBytes dp ++ fieldBytes len ++ fieldBytes c ++ payload) k = .error .lengthMismatch ∨
        deserialize cfg (fieldBytes sp ++ fieldBytes dp ++ fieldBytes len ++ fieldBytes c ++ payload) k = .error .payloadTooLarge))

/-- R76: IsChecksumValid is true exactly when the stored checksum is 0x0000 or the computed one; without a stored checksum the
model refuses, as U4 has a host-level model do (the model's choice, log entry 12). -/
def Obligations.IsChecksumValidRule : Prop :=
  ∀ (s : Segment) (k : Block),
    (∀ c, s.checksum = some c →
      (∃ k' : Block, isChecksumValid s k = .ok (decide (c = 0x0000#16 ∨ c = (computeChecksum s k).1), k')) ∧
      (runCommands (List.map encode (Instr.clr :: .addw s.sourcePort :: .addw s.destinationPort :: .addw s.length :: .addw 0x0000#16 ::
        (expandAdds s.payload ++ [.verify c]))) k).2.getLast? =
          some (if c = 0x0000#16 ∨ c = (computeChecksum s k).1 then 0x0001#16 else 0x0000#16)) ∧
    (s.checksum = none → isChecksumValid s k = .error .checksumUnset)

/-- R80: the length invariant of constructed and of decoded segments. -/
def Obligations.LengthInvariant : Prop :=
  (∀ (cfg : FramerConfig) (sp dp : Int) (payload : List Byte) (s : Segment),
    construct cfg sp dp payload = .ok s → s.length.toNat = 8 + s.payload.length) ∧
  (∀ (cfg : FramerConfig) (bytes : List Byte) (k k' : Block) (s : Segment),
    deserialize cfg bytes k = .ok (s, k') → s.length.toNat = 8 + s.payload.length ∧ s.length.toNat = bytes.length)

/-- R81: the round trip, for every input Construct accepts and whatever the block held. -/
def Obligations.RoundTrip : Prop :=
  ∀ (cfg cfg' : FramerConfig) (sp dp : Int) (payload : List Byte) (s : Segment) (k k1 : Block),
    construct cfg sp dp payload = .ok s →
    ∃ (t : Segment) (k2 : Block), deserialize cfg' (serialize s k).1.1 k1 = .ok (t, k2) ∧
      t.sourcePort = s.sourcePort ∧ t.destinationPort = s.destinationPort ∧ t.payload = s.payload ∧ t.length = s.length ∧
      t.isValid = some true ∧ t.checksum = some (serialize s k).1.2 ∧ (serialize s k).1.2 ≠ 0x0000#16

/-- R82: the boundaries of the payload cap and of the header. -/
def Obligations.BoundaryAndTruncation : Prop :=
  (∀ (cfg : FramerConfig) (sp dp : Word) (payload : List Byte), payload.length = 65507 →
    ∃ s, construct cfg sp.toNat dp.toNat payload = .ok s) ∧
  (∀ (cfg : FramerConfig) (sp dp : Word) (payload : List Byte), payload.length = 65508 →
    construct cfg sp.toNat dp.toNat payload = .error .payloadTooLarge) ∧
  (∀ (cfg : FramerConfig) (bytes : List Byte) (k : Block), bytes.length = 7 →
    deserialize cfg bytes k = .error .truncatedHeader) ∧
  (∀ (cfg : FramerConfig) (bytes : List Byte) (k : Block), bytes.length = 8 →
    (bytes[4]? = some 0x00#8 ∧ bytes[5]? = some 0x08#8 →
      ∃ s k', deserialize cfg bytes k = .ok (s, k') ∧ s.length = 0x0008#16 ∧ s.payload = []) ∧
    (¬ (bytes[4]? = some 0x00#8 ∧ bytes[5]? = some 0x08#8) → deserialize cfg bytes k = .error .lengthMismatch))

/-- R83: one flipped bit of a serialized segment: in a port or the payload it decodes as invalid, in the length field it is a
LengthMismatch. -/
def Obligations.FlippedBitIsDetected : Prop :=
  ∀ (cfg cfg' : FramerConfig) (sp dp : Int) (payload : List Byte) (s : Segment) (k k1 : Block) (i j : Nat),
    construct cfg sp dp payload = .ok s → i < (serialize s k).1.1.length → j < 8 →
    ((i < 4 ∨ 8 ≤ i) →
      ∃ t k2, deserialize cfg' (flipBit (serialize s k).1.1 i j) k1 = .ok (t, k2) ∧ t.isValid = some false) ∧
    ((i = 4 ∨ i = 5) → deserialize cfg' (flipBit (serialize s k).1.1 i j) k1 = .error .lengthMismatch)

/-- R84: a decoded segment whose checksum field is zero is always valid; the length check still applies. -/
def Obligations.ZeroChecksumIsValid : Prop :=
  ∀ (cfg : FramerConfig) (sp dp len : Word) (payload : List Byte) (k : Block),
    (∀ s k', deserialize cfg (fieldBytes sp ++ fieldBytes dp ++ fieldBytes len ++ [0x00#8, 0x00#8] ++ payload) k = .ok (s, k') →
      s.isValid = some true) ∧
    (len.toNat ≠ 8 + payload.length → payload.length ≤ 65507 →
      deserialize cfg (fieldBytes sp ++ fieldBytes dp ++ fieldBytes len ++ [0x00#8, 0x00#8] ++ payload) k =
        .error .lengthMismatch)

/-- R85: the source's concrete scenario, from any block and under every configuration. -/
def Obligations.ConcreteScenario : Prop :=
  ∀ (cfg cfg' : FramerConfig) (k k1 : Block), ∃ (s t : Segment) (k2 : Block),
    construct cfg 12345 80 [0x68#8, 0x69#8] = .ok s ∧
    (serialize s k).1.1 = [0x30#8, 0x39#8, 0x00#8, 0x50#8, 0x00#8, 0x0A#8, 0x67#8, 0x03#8, 0x68#8, 0x69#8] ∧
    paddedSum (serialize s k).2 = 0x98FC#16 ∧
    deserialize cfg' (serialize s k).1.1 k1 = .ok (t, k2) ∧
    t.sourcePort.toNat = 12345 ∧ t.destinationPort.toNat = 80 ∧ t.payload = [0x68#8, 0x69#8] ∧ t.length.toNat = 10 ∧
    t.isValid = some true

/-- R86: a segment's padded sum is never zero, and its checksum is 0xFFFF only through the replacement. -/
def Obligations.SegmentSumIsNeverZero : Prop :=
  ∀ (s : Segment) (k : Block), s.length.toNat = 8 + s.payload.length →
    s.length ∈ paddedWords (checksumBytes s) ∧ 8 ≤ s.length.toNat ∧
    1 ≤ (paddedSum (computeChecksum s k).2).toNat ∧
    ((computeChecksum s k).1 = 0xFFFF#16 ↔ paddedSum (computeChecksum s k).2 = 0xFFFF#16)
end

