-- ==== Sys2Proof/Laws/Arith.lean ====
section
/-! SUPPORT. One spec lemma per arithmetic function: what the loop of `fold16`, `oc_add` and the byte operations give as numbers. -/

namespace Sys2Proof.Machine

theorem foldLoop_lt (turns x : Nat) : foldLoop turns x < 65536 := by
  induction turns generalizing x with
  | zero => simp only [foldLoop]; omega
  | succ turns ih =>
    simp only [foldLoop]
    split
    · assumption
    · exact ih _

/-- Enough turns are enough: more of them change nothing. -/
theorem foldLoop_enough (turns turns' x : Nat) (h : x ≤ turns) (h' : x ≤ turns') : foldLoop turns x = foldLoop turns' x := by
  induction turns generalizing x turns' with
  | zero =>
    have hx : x = 0 := by omega
    cases turns' <;> simp [foldLoop, hx]
  | succ turns ih =>
    cases turns' with
    | zero =>
      have hx : x = 0 := by omega
      simp [foldLoop, hx]
    | succ turns' =>
      simp only [foldLoop]
      split
      · rfl
      · exact ih _ _ (by omega) (by omega)

theorem fold16_toNat (x : Nat) : (fold16 x).toNat = foldLoop x x := by
  simp only [fold16, BitVec.toNat_ofNat]
  exact Nat.mod_eq_of_lt (foldLoop_lt x x)

theorem ocAdd_toNat (a b : Word) :
    (ocAdd a b).toNat = if a.toNat + b.toNat < 65536 then a.toNat + b.toNat else a.toNat + b.toNat - 65535 := by
  have ha := a.isLt
  have hb := b.isLt
  simp only [ocAdd, BitVec.toNat_add, BitVec.extractLsb'_toNat, BitVec.toNat_setWidth, Nat.shiftRight_eq_div_pow]
  split <;> omega

theorem wordOf_toNat (b0 b1 : Byte) : (wordOf b0 b1).toNat = b0.toNat * 256 + b1.toNat := by
  have h1 := b1.isLt
  simp only [wordOf, BitVec.toNat_append]
  rw [← Nat.shiftLeft_add_eq_or_of_lt h1, Nat.shiftLeft_eq]

theorem highByte_toNat (w : Word) : (highByte w).toNat = w.toNat / 256 := by
  have h := w.isLt
  simp only [highByte, BitVec.extractLsb'_toNat, Nat.shiftRight_eq_div_pow]
  omega

theorem lowByte_toNat (w : Word) : (lowByte w).toNat = w.toNat % 256 := by
  simp only [lowByte, BitVec.extractLsb'_toNat, Nat.shiftRight_zero]

@[simp] theorem wordOf_highByte_lowByte (w : Word) : wordOf (highByte w) (lowByte w) = w := by
  apply BitVec.eq_of_toNat_eq
  rw [wordOf_toNat, highByte_toNat, lowByte_toNat]
  omega

@[simp] theorem highByte_wordOf (b0 b1 : Byte) : highByte (wordOf b0 b1) = b0 := by
  apply BitVec.eq_of_toNat_eq
  have h := b1.isLt
  rw [highByte_toNat, wordOf_toNat]
  omega

@[simp] theorem lowByte_wordOf (b0 b1 : Byte) : lowByte (wordOf b0 b1) = b1 := by
  apply BitVec.eq_of_toNat_eq
  have h := b1.isLt
  rw [lowByte_toNat, wordOf_toNat]
  omega

end Sys2Proof.Machine
end

