-- ==== Sys2Proof/Laws/State.lean ====
section
/-! SUPPORT. Field lemmas: what each update of the block or of the machine leaves in each field. -/

namespace Sys2Proof.Machine

@[simp] theorem clearStream_sum (k : Block) : (clearStream k).sum = 0x0000#16 := rfl
@[simp] theorem clearStream_hold (k : Block) : (clearStream k).hold = 0x00#8 := rfl
@[simp] theorem clearStream_odd (k : Block) : (clearStream k).odd = false := rfl
@[simp] theorem clearStream_err (k : Block) : (clearStream k).err = k.err := rfl

@[simp] theorem complete_block (s : State) (r : Block × Word) : (complete s r).block = r.1 := rfl
@[simp] theorem complete_pending (s : State) (r : Block × Word) : (complete s r).pending = s.pending := rfl
@[simp] theorem complete_responses (s : State) (r : Block × Word) :
    (complete s r).responses = s.responses ++ [r.2] := rfl

@[simp] theorem presentFirst_block (e : Event) (s : State) : (presentFirst e s).block = s.block := rfl
@[simp] theorem presentFirst_pending (e : Event) (s : State) : (presentFirst e s).pending = e :: s.pending := rfl
@[simp] theorem presentFirst_responses (e : Event) (s : State) : (presentFirst e s).responses = s.responses := rfl

@[simp] theorem reset_sum : Block.reset.sum = 0x0000#16 := rfl
@[simp] theorem reset_hold : Block.reset.hold = 0x00#8 := rfl
@[simp] theorem reset_odd : Block.reset.odd = false := rfl
@[simp] theorem reset_err : Block.reset.err = false := rfl

@[simp] theorem reject_sum (k : Block) : (reject k).1.sum = k.sum := rfl
@[simp] theorem reject_hold (k : Block) : (reject k).1.hold = k.hold := rfl
@[simp] theorem reject_odd (k : Block) : (reject k).1.odd = k.odd := rfl
@[simp] theorem reject_err (k : Block) : (reject k).1.err = true := rfl
@[simp] theorem reject_response (k : Block) : (reject k).2 = 0x0000#16 := rfl

end Sys2Proof.Machine
end

