-- ==== Sys2Proof/Laws/Ops.lean ====
section
/-! SUPPORT. One spec lemma per shared operation: everything it can do. -/

namespace Sys2Proof.Machine

theorem absorbByte_even (b : Byte) (k : Block) (h : k.odd = false) :
    absorbByte b k = { sum := k.sum, hold := b, odd := true, err := k.err } := by
  simp [absorbByte, h]

theorem absorbByte_odd (b : Byte) (k : Block) (h : k.odd = true) :
    absorbByte b k = { sum := ocAdd k.sum (wordOf k.hold b), hold := 0x00#8, odd := false, err := k.err } := by
  simp [absorbByte, h]

@[simp] theorem absorbByte_phase (b : Byte) (k : Block) : (absorbByte b k).odd = !k.odd := by
  cases h : k.odd <;> simp [absorbByte, h]

@[simp] theorem absorbByte_err (b : Byte) (k : Block) : (absorbByte b k).err = k.err := by
  cases h : k.odd <;> simp [absorbByte, h]

theorem absorbWord_even (w : Word) (k : Block) (h : k.odd = false) :
    absorbWord w k = { sum := ocAdd k.sum w, hold := 0x00#8, odd := false, err := k.err } := by
  rw [absorbWord, absorbByte_even _ _ h, absorbByte_odd _ _ rfl]
  simp

theorem absorbWord_odd (w : Word) (k : Block) (h : k.odd = true) :
    absorbWord w k = { sum := ocAdd k.sum (wordOf k.hold (highByte w)), hold := lowByte w, odd := true, err := k.err } := by
  rw [absorbWord, absorbByte_odd _ _ h, absorbByte_even _ _ rfl]

@[simp] theorem absorbWord_err (w : Word) (k : Block) : (absorbWord w k).err = k.err := by simp [absorbWord]

theorem paddedSum_even (k : Block) (h : k.odd = false) : paddedSum k = k.sum := by simp [paddedSum, h]

theorem paddedSum_odd (k : Block) (h : k.odd = true) : paddedSum k = ocAdd k.sum (wordOf k.hold padByte) := by
  simp [paddedSum, h]

/-- The padded sum does not read `ERR`. -/
@[simp] theorem paddedSum_with_err (k : Block) (e : Bool) : paddedSum { k with err := e } = paddedSum k := rfl

/-- The final checksum does not read `ERR`. -/
@[simp] theorem csumFinal_with_err (k : Block) (e : Bool) : csumFinal { k with err := e } = csumFinal k := rfl

theorem statusWord_toNat (k : Block) : (statusWord k).toNat = k.hold.toNat * 256 + k.err.toNat * 2 + k.odd.toNat := by
  obtain ⟨sum, hold, odd, err⟩ := k
  simp only [statusWord, flagBit, BitVec.toNat_append, Nat.shiftLeft_eq]
  rw [← Nat.shiftLeft_eq, ← Nat.shiftLeft_add_eq_or_of_lt (by cases odd <;> cases err <;> decide), Nat.shiftLeft_eq,
    ← Nat.shiftLeft_eq hold.toNat, ← Nat.shiftLeft_add_eq_or_of_lt (by decide), Nat.shiftLeft_eq]
  cases odd <;> cases err <;> simp <;> omega

theorem statusWord_err (k : Block) : (statusWord k).getLsbD 1 = k.err := by
  rw [statusWord, BitVec.getLsbD_append, BitVec.getLsbD_append, flagBit]
  cases k.err <;> rfl

theorem statusWord_odd (k : Block) : (statusWord k).getLsbD 0 = k.odd := by
  rw [statusWord, BitVec.getLsbD_append, BitVec.getLsbD_append, flagBit]
  cases k.odd <;> rfl

/-- What taking an event can do: nothing is pending, or the oldest event is taken. -/
theorem nextEvent_cases (s : State) :
    (s.pending = [] ∧ nextEvent s = none) ∨
    ∃ e rest, s.pending = e :: rest ∧ nextEvent s = some (e, { s with pending := rest }) := by
  cases h : s.pending with
  | nil => exact .inl ⟨rfl, by simp [nextEvent, h]⟩
  | cons e rest => exact .inr ⟨e, rest, rfl, by simp [nextEvent, h]⟩

end Sys2Proof.Machine
end

