-- ==== Sys2Proof/Laws/Exec.lean ====
section
/-! SUPPORT. What `exec` and `step` can do, said once: `exec` completes the transaction of `effect`, and `step` takes one event. -/

namespace Sys2Proof.Machine

/-- `exec` always answers a next state, the one of the command's transaction (30_encoding.md R30). -/
theorem exec_eq_complete_effect (i : Instr) (s : State) : exec i s = .next (complete s (effect i s.block)) := by
  cases i <;> rfl

theorem transact_command {w : Command} {i : Instr} (h : decode w = .command i) (k : Block) : transact w k = effect i k := by
  simp [transact, h]

theorem transact_reserved {w : Command} {r : Reserved} (h : decode w = .reserved r) (k : Block) : transact w k = reject k := by
  simp [transact, h]

/-- A pending command word is one transaction. -/
theorem step_of_word {s : State} {w : Command} {rest : List Event} (h : s.pending = .command w :: rest) :
    step s = .next (complete { s with pending := rest } (transact w s.block)) := by
  simp only [step, nextEvent, h, transact]
  cases decode w with
  | command i => exact exec_eq_complete_effect i _
  | reserved r => rfl

theorem step_of_reset {s : State} {rest : List Event} (h : s.pending = .reset :: rest) :
    step s = .next { s with pending := rest, block := Block.reset } := by
  simp [step, nextEvent, h, takeReset]

theorem step_of_nothing {s : State} (h : s.pending = []) : step s = .next s := by
  simp [step, nextEvent, h, takeNothing]

/-- Everything a step can do. -/
theorem step_cases {s t : State} (h : step s = .next t) :
    (s.pending = [] ∧ t = s) ∨
    (∃ rest, s.pending = .reset :: rest ∧ t = { s with pending := rest, block := Block.reset }) ∨
    ∃ w rest, s.pending = .command w :: rest ∧ t = complete { s with pending := rest } (transact w s.block) := by
  match hp : s.pending with
  | [] => rw [step_of_nothing hp] at h; cases h; exact .inl ⟨rfl, rfl⟩
  | .reset :: rest => rw [step_of_reset hp] at h; cases h; exact .inr (.inl ⟨rest, rfl, rfl⟩)
  | .command w :: rest => rw [step_of_word hp] at h; cases h; exact .inr (.inr ⟨w, rest, rfl, rfl⟩)

/-- A table word presented is the command the next step takes, and nothing else changes. -/
theorem withFetchWord_of_command {nbits w : Nat} {cmd : Command} (h : tableCommand nbits w = some cmd) (s : State) :
    s.withFetchWord nbits w = { s with pending := .command cmd :: s.pending } := by
  simp [State.withFetchWord, presentTableWord, h, presentFirst]

theorem host_run_of_next (M : Host.Core) {s t : M.State} (k : Nat) (h : M.step s = .next t) :
    M.run (k + 1) s = M.run k t := by
  simp only [Host.Core.run, h]

/-- A run takes its steps one by one. -/
theorem core_run_of_next {s t : State} (k : Nat) (h : step s = .next t) : core.run (k + 1) s = core.run k t :=
  host_run_of_next core k h

theorem core_run_zero (s : State) : core.run 0 s = .next s := rfl

@[simp] theorem runCommands_nil (k : Block) : runCommands [] k = (k, []) := rfl

theorem runCommands_append (ws ws' : List Command) (k : Block) :
    runCommands (ws ++ ws') k =
      ((runCommands ws' (runCommands ws k).1).1, (runCommands ws k).2 ++ (runCommands ws' (runCommands ws k).1).2) := by
  induction ws generalizing k with
  | nil => rfl
  | cons w ws ih => simp [runCommands, ih]

end Sys2Proof.Machine
end

