-- ==== Sys2Proof/Laws/Framer.lean ====
section
/-! SUPPORT. Spec lemmas of the host procedures' parts: the bytes of a field, and Deserialize on bytes in the wire format. -/

namespace Sys2Proof.Machine

@[simp] theorem fieldBytes_length (w : Word) : (fieldBytes w).length = 2 := rfl

theorem fieldBytes_wordOf (b0 b1 : Byte) : fieldBytes (wordOf b0 b1) = [b0, b1] := by simp [fieldBytes]

theorem wireBytes_length (s : Segment) (c : Word) : (wireBytes s c).length = 8 + s.payload.length := by
  simp only [wireBytes, List.length_append, fieldBytes_length]

@[simp] theorem withValidity_isValid (s : Segment) (v : Bool) : (withValidity s v).isValid = some v := rfl
@[simp] theorem withValidity_sourcePort (s : Segment) (v : Bool) : (withValidity s v).sourcePort = s.sourcePort := rfl
@[simp] theorem withValidity_destinationPort (s : Segment) (v : Bool) :
    (withValidity s v).destinationPort = s.destinationPort := rfl
@[simp] theorem withValidity_payload (s : Segment) (v : Bool) : (withValidity s v).payload = s.payload := rfl
@[simp] theorem withValidity_length (s : Segment) (v : Bool) : (withValidity s v).length = s.length := rfl
@[simp] theorem withValidity_checksum (s : Segment) (v : Bool) : (withValidity s v).checksum = s.checksum := rfl

/-- Deserialize reads the fields that the wire format lays out. -/
theorem deserialize_wire (cfg : FramerConfig) (sp dp len c : Word) (payload : List Byte) (k : Block) :
    deserialize cfg (fieldBytes sp ++ fieldBytes dp ++ fieldBytes len ++ fieldBytes c ++ payload) k =
      deserializeFields cfg sp dp len c payload k := by
  simp [deserialize, fieldBytes]

/-- A sequence of at least 8 bytes is four fields and a payload. -/
theorem exists_fields (bytes : List Byte) (h : 8 ≤ bytes.length) :
    ∃ sp dp len c payload, bytes = fieldBytes sp ++ fieldBytes dp ++ fieldBytes len ++ fieldBytes c ++ payload := by
  match bytes, h with
  | b0 :: b1 :: b2 :: b3 :: b4 :: b5 :: b6 :: b7 :: payload, _ =>
    exact ⟨wordOf b0 b1, wordOf b2 b3, wordOf b4 b5, wordOf b6 b7, payload, by simp [fieldBytes]⟩

/-- The last word of a run is answered from the block the words before it left. -/
theorem runCommands_last (ws : List Command) (w : Command) (k : Block) :
    (runCommands (ws ++ [w]) k).1 = (transact w (runCommands ws k).1).1 ∧
    (runCommands (ws ++ [w]) k).2.getLastD 0x0000#16 = (transact w (runCommands ws k).1).2 := by
  rw [runCommands_append]
  simp [runCommands]

end Sys2Proof.Machine
end

