-- ==== Sys2Proof/Laws/PerInstr.lean ====
section
/-! SUPPORT. Statements for all instructions, one lemma per constructor. -/

namespace Sys2Proof.Laws.RowSelects

/-- The row of the opcode map selects every word of its command, whatever the operand, and the word's argument meets its form
(30_encoding.md R31, R34). -/
def Statement (i : Instr) : Prop :=
  (rowOf i).selects (encode i) = true ∧ (formOf i).admits (argField (encode i)) = true

/-- The opcode and the argument are the two fields of the encoded word (R31). -/
theorem fields_of_encode (i : Instr) : opField (encode i) = opcodeOf i ∧ argField (encode i) = argOf i := by
  constructor <;> simp only [opField, argField, encode]
  · exact BitVec.extractLsb'_append_eq_left
  · exact BitVec.extractLsb'_append_eq_right

theorem nop : Statement .nop := by unfold Statement; decide
theorem clr : Statement .clr := by unfold Statement; decide

theorem addb (b : Byte) : Statement (.addb b) := by
  have hmask : 0xFFF00#20 = 0xF#4 ++ (0xFF#8 ++ 0x00#8 : BitVec 16) := by decide
  have hvalue : 0x20000#20 = 0x2#4 ++ (0x00#8 ++ 0x00#8 : BitVec 16) := by decide
  refine ⟨?_, ?_⟩
  · simp only [rowOf, OpcodeRow.selects, encode, opcodeOf, argOf, beq_iff_eq]
    rw [hmask, hvalue, BitVec.and_append, BitVec.and_append]
    simp
  · rw [(fields_of_encode _).2]
    simp only [formOf, Form.admits, argOf, beq_iff_eq]
    exact BitVec.extractLsb'_append_eq_left

/-- A word with a full 16-bit operand is selected by a mask of the opcode bits alone. -/
theorem selects_of_opcode (op : BitVec 4) (arg : Word) : (op ++ arg : Command) &&& 0xF0000#20 = op ++ 0x0000#16 := by
  have hmask : 0xF0000#20 = 0xF#4 ++ 0x0000#16 := by decide
  have hall : op &&& 0xF#4 = op := by
    have : 0xF#4 = BitVec.allOnes 4 := by decide
    rw [this, BitVec.and_allOnes]
  rw [hmask, BitVec.and_append, hall]
  simp

theorem addw (w : Word) : Statement (.addw w) := by
  refine ⟨?_, rfl⟩
  simp only [rowOf, OpcodeRow.selects, encode, opcodeOf, argOf, beq_iff_eq]
  exact selects_of_opcode 0x3#4 w

theorem rdsum : Statement .rdsum := by unfold Statement; decide
theorem rdcsum : Statement .rdcsum := by unfold Statement; decide

theorem verify (c : Word) : Statement (.verify c) := by
  refine ⟨?_, rfl⟩
  simp only [rowOf, OpcodeRow.selects, encode, opcodeOf, argOf, beq_iff_eq]
  exact selects_of_opcode 0x6#4 c

theorem rdst : Statement .rdst := by unfold Statement; decide

end Sys2Proof.Laws.RowSelects
end

