-- ==== Sys2Proof/Laws/Stream.lean ====
section
/-! SUPPORT. The words of a stream as it grows: what one more byte does to the complete words, the held byte and the padded words. -/

namespace Sys2Proof.Machine

/-- Two bytes at a time: an induction over a stream that ends even or with one byte. -/
theorem stream_induction {p : List Byte → Prop} (nil : p []) (one : ∀ b, p [b])
    (pair : ∀ b0 b1 rest, p rest → p (b0 :: b1 :: rest)) : ∀ bytes, p bytes
  | [] => nil
  | [b] => one b
  | b0 :: b1 :: rest => pair b0 b1 rest (stream_induction nil one pair rest)

theorem completeWords_append_even (bytes more : List Byte) (h : bytes.length % 2 = 0) :
    completeWords (bytes ++ more) = completeWords bytes ++ completeWords more := by
  induction bytes using stream_induction with
  | nil => rfl
  | one b => simp at h
  | pair b0 b1 rest ih =>
    have hr : rest.length % 2 = 0 := by simp only [List.length_cons] at h; omega
    simp [completeWords, ih hr]

/-- An odd stream is an even one and its held byte. -/
theorem odd_stream_split (bytes : List Byte) (h : bytes.length % 2 = 1) :
    ∃ front b, bytes = front ++ [b] ∧ front.length % 2 = 0 ∧ heldByte bytes = b := by
  have hne : bytes ≠ [] := by intro he; simp [he] at h
  refine ⟨bytes.dropLast, bytes.getLast hne, (List.dropLast_append_getLast hne).symm, ?_, ?_⟩
  · rw [List.length_dropLast]; omega
  · simp [heldByte, h, List.getLastD_eq_getLast?, List.getLast?_eq_some_getLast hne]

theorem heldByte_even (bytes : List Byte) (h : bytes.length % 2 = 0) : heldByte bytes = 0x00#8 := by
  simp [heldByte, h]

theorem paddedWords_even (bytes : List Byte) (h : bytes.length % 2 = 0) : paddedWords bytes = completeWords bytes := by
  induction bytes using stream_induction with
  | nil => rfl
  | one b => simp at h
  | pair b0 b1 rest ih =>
    have hr : rest.length % 2 = 0 := by simp only [List.length_cons] at h; omega
    simp [completeWords, paddedWords, ih hr]

theorem paddedWords_append_even (bytes more : List Byte) (h : bytes.length % 2 = 0) :
    paddedWords (bytes ++ more) = paddedWords bytes ++ paddedWords more := by
  induction bytes using stream_induction with
  | nil => rfl
  | one b => simp at h
  | pair b0 b1 rest ih =>
    have hr : rest.length % 2 = 0 := by simp only [List.length_cons] at h; omega
    simp [paddedWords, ih hr]

@[simp] theorem exactSum_nil : exactSum [] = 0 := rfl
@[simp] theorem exactSum_cons (w : Word) (ws : List Word) : exactSum (w :: ws) = w.toNat + exactSum ws := by simp [exactSum]
@[simp] theorem exactSum_append (ws ws' : List Word) : exactSum (ws ++ ws') = exactSum ws + exactSum ws' := by
  simp [exactSum]

end Sys2Proof.Machine
end

