-- ==== Sys2Proof/Tests/Slice0.lean ====
section
/-! SUPPORT. Tests. Every expected value is the spec's: the tables V1 to V10 of spec/95_test_vectors.md, its examples E1 to E7, and
the examples of the rules. Then, for each obligation with hypotheses, a witness that meets them, clause by clause. -/

namespace Sys2Proof.Tests

open Sys2Proof.Machine

/-- A block, written SUM HOLD ODD ERR as the tables write it. -/
def blk (sum : Word) (hold : Byte) (odd err : Bool) : Block := { sum := sum, hold := hold, odd := odd, err := err }

/-- A machine with one event presented. -/
def st (k : Block) (e : Event) : State := { block := k, pending := [e], responses := [] }

/-- A machine with nothing presented. -/
def idle (k : Block) : State := { block := k, pending := [], responses := [] }

/-- The registers and the responses after one step; `none` for a fault or a refusal. -/
def after (s : State) : Option (Block × List Word) :=
  match step s with
  | .next t => some (t.block, t.responses)
  | .fault _ => none
  | .refused _ => none

/-! ### Well-formedness of source lines: one ill-formed line for each check (R37) -/

theorem test_wellFormed_addb : AsmLine.wellFormed (.addb 0x100) = false ∧ AsmLine.wellFormed (.addb 0xFF) = true := by decide
theorem test_wellFormed_addw : AsmLine.wellFormed (.addw 0x10000) = false ∧ AsmLine.wellFormed (.addw 0xFFFF) = true := by decide
theorem test_wellFormed_verify :
    AsmLine.wellFormed (.verify 0x10000) = false ∧ AsmLine.wellFormed (.verify 0xFFFF) = true := by decide
theorem test_wellFormed_raw : AsmLine.wellFormed (.raw 0x100000) = false ∧ AsmLine.wellFormed (.raw 0xFFFFF) = true := by decide
theorem test_wellFormed_adds :
    AsmLine.wellFormed (.adds [1, 0x100]) = false ∧ AsmLine.wellFormed (.adds [1, 0xFF]) = true := by decide
theorem test_wellFormed_addhdr : AsmLine.wellFormed (.addhdr 0x10000 0 0) = false ∧
    AsmLine.wellFormed (.addhdr 0 0x10000 0) = false ∧ AsmLine.wellFormed (.addhdr 0 0 0x10000) = false := by decide
theorem test_form_z_refuses : Form.z.admits 0x0001#16 = false ∧ Form.z.admits 0x0100#16 = false := by decide
theorem test_form_b_refuses : Form.b.admits 0x0100#16 = false ∧ Form.b.admits 0x00FF#16 = true := by decide

/-! ### Decode: words written out bit by bit, `OP` then `ARG` (R31, R34), and table V8 -/

theorem test_decode_nop : decode 0b0000_0000000000000000#20 = .command .nop := by decide
theorem test_decode_clr : decode 0b0001_0000000000000000#20 = .command .clr := by decide
theorem test_decode_addb : decode 0b0010_0000000001100011#20 = .command (.addb 0x63#8) := by decide
theorem test_decode_addw : decode 0b0011_0011000000111001#20 = .command (.addw 0x3039#16) := by decide
theorem test_decode_rdsum : decode 0b0100_0000000000000000#20 = .command .rdsum := by decide
theorem test_decode_rdcsum : decode 0b0101_0000000000000000#20 = .command .rdcsum := by decide
theorem test_decode_verify : decode 0b0110_0110011100000011#20 = .command (.verify 0x6703#16) := by decide
theorem test_decode_rdst : decode 0b0111_0000000000000000#20 = .command .rdst := by decide

theorem test_decode_reserved_argument :
    decode 0x00001#20 = .reserved .argument ∧ decode 0x0FFFF#20 = .reserved .argument ∧
    decode 0x18000#20 = .reserved .argument ∧ decode 0x20100#20 = .reserved .argument ∧
    decode 0x28000#20 = .reserved .argument ∧ decode 0x40100#20 = .reserved .argument ∧
    decode 0x5FFFF#20 = .reserved .argument ∧ decode 0x70002#20 = .reserved .argument := by decide

theorem test_decode_reserved_opcode :
    decode 0x80000#20 = .reserved .opcode ∧ decode 0x8FFFF#20 = .reserved .opcode ∧ decode 0xA1234#20 = .reserved .opcode ∧
    decode 0xF0000#20 = .reserved .opcode ∧ decode 0xFFFFF#20 = .reserved .opcode := by decide

theorem test_decodeTableWord : decodeTableWord 24 0x33039 = some (.addw 0x3039#16) ∧
    decodeTableWord 24 0x20100 = none ∧ decodeTableWord 24 0x833039 = none := by decide

/-! ### Arithmetic (V1, V2) -/

theorem test_fold16 : fold16 0x1FFFE = 0xFFFF#16 ∧ fold16 0x1FFFF = 0x0001#16 ∧ fold16 0xFFFFFFFF = 0xFFFF#16 ∧
    fold16 0x7FFF8001 = 0x0001#16 := by decide
theorem test_fold16_largest : fold16 0x7FF5800A = 0xFFFF#16 ∧ fold16 0xFFFF0000 = 0xFFFF#16 ∧ fold16 0 = 0x0000#16 := by decide
theorem test_ocAdd : ocAdd 0xABCD#16 0xEF01#16 = 0x9ACF#16 ∧ ocAdd 0x8000#16 0x8000#16 = 0x0001#16 ∧
    ocAdd 0xFFFF#16 0xFFFF#16 = 0xFFFF#16 ∧ ocAdd 0x0000#16 0x0000#16 = 0x0000#16 := by decide

/-! ### Each command (V3 to V7), at most two rows each -/

theorem test_clr_discards_held : after (st (blk 0x6170 0x63 true false) (.command 0x10000#20)) =
    some (blk 0x0000 0x00 false false, [0x0000#16]) := by decide
theorem test_clr_keeps_err : after (st (blk 0x1234 0x00 false true) (.command 0x10000#20)) =
    some (blk 0x0000 0x00 false true, [0x0000#16]) := by decide
theorem test_addb_even : after (st (blk 0x1234 0x00 false false) (.command 0x20000#20)) =
    some (blk 0x1234 0x00 true false, [0x0000#16]) := by decide
theorem test_addb_odd_carry : after (st (blk 0x00FF 0xFF true false) (.command 0x20001#20)) =
    some (blk 0x0001 0x00 false false, [0x0000#16]) := by decide
theorem test_addw_even_carry : after (st (blk 0xFFFF 0x00 false false) (.command 0x30001#20)) =
    some (blk 0x0001 0x00 false false, [0x0000#16]) := by decide
theorem test_addw_odd : after (st (blk 0xABCD 0xEF true false) (.command 0x30102#20)) =
    some (blk 0x9ACF 0x02 true false, [0x0000#16]) := by decide
theorem test_rdsum_odd : after (st (blk 0xFF00 0xFF true false) (.command 0x40000#20)) =
    some (blk 0xFF00 0xFF true false, [0xFE01#16]) := by decide
theorem test_rdsum_even : after (st (blk 0xFFFF 0x00 false false) (.command 0x40000#20)) =
    some (blk 0xFFFF 0x00 false false, [0xFFFF#16]) := by decide
theorem test_rdcsum_replaced : after (st (blk 0x00FF 0xFF true false) (.command 0x50000#20)) =
    some (blk 0x00FF 0xFF true false, [0xFFFF#16]) := by decide
theorem test_rdcsum_odd : after (st (blk 0x0001 0xFF true false) (.command 0x50000#20)) =
    some (blk 0x0001 0xFF true false, [0x00FE#16]) := by decide
theorem test_verify_mismatch : after (st (blk 0x98FC 0x00 false false) (.command 0x66702#20)) =
    some (blk 0x98FC 0x00 false false, [0x0000#16]) := by decide
theorem test_verify_zero : after (st (blk 0x98FC 0x00 false false) (.command 0x60000#20)) =
    some (blk 0x98FC 0x00 false false, [0x0001#16]) := by decide
theorem test_nop : after (st (blk 0x1234 0xAB true true) (.command 0x00000#20)) =
    some (blk 0x1234 0xAB true true, [0x0000#16]) := by decide
theorem test_rdst : after (st (blk 0xFFFF 0xFF true true) (.command 0x70000#20)) =
    some (blk 0xFFFF 0xFF true true, [0xFF03#16]) := by decide
theorem test_rdst_err : after (st (blk 0x6170 0x00 false true) (.command 0x70000#20)) =
    some (blk 0x6170 0x00 false true, [0x0002#16]) := by decide

/-! ### The reject action, reset, and presenting a word (V3 to V7, R90, R100) -/

theorem test_reserved_clr : after (st (blk 0x1234 0x00 false false) (.command 0x10001#20)) =
    some (blk 0x1234 0x00 false true, [0x0000#16]) := by decide
theorem test_reserved_rdst : after (st (blk 0x6170 0x63 true false) (.command 0x7FFFF#20)) =
    some (blk 0x6170 0x63 true true, [0x0000#16]) := by decide
theorem test_reset : after (st (blk 0x6170 0x63 true true) .reset) = some (blk 0x0000 0x00 false false, []) := by decide
theorem test_withFetchWord : after (State.reset.withFetchWord 24 0x33039) =
    some (blk 0x3039 0x00 false false, [0x0000#16]) := by decide

/-- A segment as Construct leaves it. -/
def seg (sp dp : Word) (payload : List Byte) (length : Word) : Segment := ⟨sp, dp, payload, length, none, none⟩

/-! ### The host procedures and the assembler (E1, V9, V10, R37, R38) -/

theorem test_serialize_odd : (serialize (seg 1 2 [0x61, 0x62, 0x63] 11) Block.reset).1 =
    ([0x00, 0x01, 0x00, 0x02, 0x00, 0x0B, 0x3B, 0x8F, 0x61, 0x62, 0x63], 0x3B8F#16) := by decide

theorem test_construct_ports :
    construct ⟨true, true, true⟩ 65536 0 [] = .error .invalidPort ∧ construct ⟨true, true, true⟩ 0 (-1) [] = .error .invalidPort ∧
    construct ⟨true, true, true⟩ 0 65535 [] = .ok (seg 0 0xFFFF [] 8) := by decide

/-- The verdict of a deserialized sequence, or its error. -/
def verdictOf (bytes : List Byte) : Except FramerError (Option Bool) :=
  (deserialize ⟨false, false, false⟩ bytes Block.reset).map (fun r => r.1.isValid)

theorem test_deserialize_valid : verdictOf [0x30, 0x39, 0x00, 0x50, 0x00, 0x0A, 0x67, 0x03, 0x68, 0x69] = .ok (some true) ∧
    verdictOf [0x30, 0x39, 0x00, 0x50, 0x00, 0x0A, 0x67, 0x03, 0x68, 0x6A] = .ok (some false) ∧
    verdictOf [0x30, 0x39, 0x00, 0x50, 0x00, 0x0A, 0x00, 0x00, 0xFF, 0xFF] = .ok (some true) := by decide
theorem test_deserialize_errors : verdictOf [0x30, 0x39, 0x00, 0x50, 0x00, 0x0A, 0x67] = .error .truncatedHeader ∧
    verdictOf [0x30, 0x39, 0x00, 0x50, 0x00, 0x0B, 0x67, 0x03, 0x68, 0x69] = .error .lengthMismatch ∧
    verdictOf [0x30, 0x39, 0x00, 0x50, 0x00, 0x0A, 0x67, 0xFF] = .error .lengthMismatch := by decide

theorem test_assemble_examples :
    assembleText ['A', 'D', 'D', 'W', ' ', '0', 'x', '3', '0', '3', '9', ' ', ';', 'n'] = .ok [0x33039#20] ∧
    assembleText ['A', 'D', 'D', 'B', ' ', '9', '9'] = .ok [0x20063#20] ∧
    assembleText ['.', 'w', 'o', 'r', 'd', ' ', '0', 'x', '8', '0', '0', '0', '0'] = .ok [0x80000#20] ∧
    assembleText [' ', ';', ' ', 'x'] = .ok [] ∧
    assembleText ['A', 'D', 'D', 'B', ' ', '2', '5', '6'] = .error .operandOutOfRange ∧
    assembleText ['C', 'L', 'R', ' ', '1'] = .error .badOperands ∧ assembleText ['c', 'l', 'r'] = .error .unknownMnemonic := by
  decide
theorem test_hexDigit : hexDigit '9' = some 9 ∧ hexDigit 'F' = some 15 ∧ hexDigit 'a' = some 10 ∧ hexDigit 'G' = none ∧
    hexDigit '@' = none ∧ decDigit 'A' = none ∧ decDigit '/' = none := by decide
theorem test_assemble_pseudo :
    assembleText ['A', 'D', 'D', 'S', ' ', '0', 'x', '6', '1', ' ', '9', '8', ' ', '9', '9'] = .ok [0x36162#20, 0x20063#20] ∧
    assembleText ['A', 'D', 'D', 'H', 'D', 'R', ' ', '1', ',', ' ', '2', ',', '1', '1'] =
      .ok [0x30001#20, 0x30002#20, 0x3000B#20, 0x30000#20] := by
  decide

/-! ### Witnesses: the hypotheses of each obligation can be met, each clause at a boundary -/

theorem witness_DecodeEncodeAgree : ∃ w i, decode w = .command i := ⟨0x200FF#20, .addb 0xFF#8, by decide⟩
theorem witness_ReservedWordKinds : decode 0x80000#20 = .reserved .opcode ∧ decode 0x20100#20 = .reserved .argument ∧
    (st Block.reset (.command 0xFFFFF#20)).pending = .command 0xFFFFF#20 :: [] ∧
    decode 0xFFFFF#20 = .reserved .opcode := by decide
theorem witness_Fold16IsTheLoop : (0xFFFF : Nat) < 0x10000 ∧ (0x10000 : Nat) ≤ 0x10000 := by decide
theorem witness_OcAddIsFoldedSum : 0x10000 ≤ (0xFFFF#16).toNat + (0x0001#16).toNat := by decide
theorem witness_OcAddZeros : (0x0001#16 : Word) ≠ 0x0000#16 := by decide
theorem witness_OneComplementClosedForm : (1 : Nat) ≠ 0 ∧ (1 ≤ 65535 ∧ 65535 ≤ 0xFFFF ∧ 65535 % 65535 = 131070 % 65535) ∧
    [0x0002#16, 0x0001#16].Perm (groupedWords (.add (.word 0x0001#16) (.word 0x0002#16))) := by
  refine ⟨by decide, by decide, ?_⟩
  exact .swap _ _ _
theorem witness_SumZeroExactlyWhenAllWordsZero :
    ∃ w ∈ completeWords (absorbed [] [0x30001#20]), w ≠ 0x0000#16 := ⟨0x0001#16, by decide, by decide⟩
theorem witness_ByteSplitDesignsAgree : [0x0001#16, 0x0002#16].Perm [0x0002#16, 0x0001#16] := .swap _ _ _
theorem witness_WideAccumulationAgrees : (List.replicate 65515 0xFF#8).length ≤ 65515 :=
  List.length_replicate.le
theorem witness_ResetEventResets : (st (blk 1 1 true true) .reset).pending = .reset :: [] := by decide
theorem witness_ClrComparedWithReset : (idle (blk 1 1 true false)).block.err = false := by decide
theorem witness_StepRunsDecodedCommand : (st (blk 1 1 true true) (.command 0x30000#20)).pending = .command 0x30000#20 :: [] ∧
    decode 0x30000#20 = .command (.addw 0x0000#16) := by decide
theorem witness_StepIdles : (idle (blk 1 1 true true)).pending = [] := by decide
theorem witness_ReservedWordSetsErrOnly : (st (blk 1 1 true true) (.command 0x00001#20)).pending = .command 0x00001#20 :: [] ∧
    (∀ i, decode 0x00001#20 ≠ .command i) ∧ (st (blk 1 1 true true) (.command 0x00001#20)).block.err = true := by
  refine ⟨by decide, fun i h => ?_, by decide⟩
  have hd : decode 0x00001#20 = .reserved .argument := by decide
  rw [hd] at h
  cases h
theorem witness_StepIsTotal : (st Block.reset (.command 0x10000#20)).pending = .command 0x10000#20 :: [] ∧
    (st Block.reset .reset).pending = .reset :: [] ∧ (idle Block.reset).pending = [] := by decide
theorem witness_RunIsLeftToRight : (State.mk Block.reset [.command 0x30001#20, .command 0x40000#20, .reset] []).pending = [0x30001#20, 0x40000#20].map Event.command ++ [.reset] := by decide
theorem witness_StepKeepsPhaseInv : PhaseInv (st Block.reset (.command 0x200FF#20)).block ∧
    step (st Block.reset (.command 0x200FF#20)) = .next
      { block := blk 0 0xFF true false, pending := [], responses := [0x0000#16] } := ⟨by decide, rfl⟩
theorem witness_AbsorbedStreamAbstraction : ([0xFF#8] : List Byte).length % 2 = 1 ∧ ([] : List Byte).length % 2 = 0 ∧
    (blockOf [0xFF, 0xFF, 0x00, 0x00] false).sum = (blockOf [0x00, 0x00, 0xFF, 0xFF] false).sum ∧
    (blockOf [0xFF, 0xFF, 0x00, 0x00] false).hold = (blockOf [0x00, 0x00, 0xFF, 0xFF] false).hold ∧
    (blockOf [0xFF, 0xFF, 0x00, 0x00] false).odd = (blockOf [0x00, 0x00, 0xFF, 0xFF] false).odd := by decide
theorem witness_ErrIsSticky : (st (blk 1 1 true true) .reset).pending = .reset :: [] ∧
    (∀ rest, (st Block.reset (.command 0xFFFFF#20)).pending ≠ .reset :: rest) ∧
    step (st (blk 1 1 true true) .reset) = .next (idle Block.reset) ∧
    step (st Block.reset (.command 0xFFFFF#20)) = .next
      { block := blk 0 0 false true, pending := [], responses := [0x0000#16] } := by
  refine ⟨rfl, fun rest h => ?_, rfl, rfl⟩
  cases h
theorem witness_ErrDoesNotGate : (Instr.addw 0xFFFF#16) ≠ .rdst := by decide
theorem witness_NopDoesNothing : (0xFFFF#16 : Word) ≠ 0x0000#16 := by decide
theorem witness_ClrStartsComputation : (0x0001#16 : Word) ≠ 0x0000#16 := by decide
theorem witness_AddbAbsorbsByte : (idle (blk 0 0 false true)).block.odd = false ∧ (idle (blk 0xFFFF 0 true true)).block.odd = true ∧
    (blk 0xFFFF 0 true true).hold = 0x00#8 ∧ (0x0100#16).extractLsb' 8 8 ≠ 0x00#8 := by decide
theorem witness_AddwAbsorbsTwoBytes : (idle (blk 0xFFFF 0 false false)).block.odd = false ∧
    PhaseInv (idle (blk 0xFFFF 0 false false)).block ∧ (idle (blk 0xFFFF 0xFF true false)).block.odd = true := by decide
theorem witness_RdsumReadsPaddedSum : (0x0100#16 : Word) ≠ 0x0000#16 := by decide
theorem witness_RdcsumReadsFinalChecksum : (0x8000#16 : Word) ≠ 0x0000#16 := by decide
theorem witness_RdstReadsStatus : (idle (blk 0xFFFF 0 false true)).block.odd = false ∧
    PhaseInv (idle (blk 0xFFFF 0 false true)).block ∧ (0x0002#16 : Word) ≠ 0x0000#16 := by decide
theorem witness_AccumulateFrame : isRead (.addb 0xFF#8) = false ∧ isRead (.addw 0xFFFF#16) = false ∧ isRead .clr = false ∧
    exec (.addb 0xFF#8) (idle Block.reset) = .next
      { block := blk 0 0xFF true false, pending := [], responses := [0x0000#16] } := ⟨rfl, rfl, rfl, rfl⟩
theorem witness_ReadFrame : isRead .rdsum = true ∧ exec .rdsum (idle Block.reset) = .next
    { block := Block.reset, pending := [], responses := [0x0000#16] } := ⟨rfl, rfl⟩
theorem witness_ReadsArePure : ∀ i ∈ [Instr.nop, .rdsum, .rdcsum, .verify 0x0000#16, .rdst], isRead i = true := by decide
theorem witness_PaddedSumIsPaddedStream : (blk 0xFFFF 0 false false).odd = false ∧ (blk 0x00FF 0xFF true false).odd = true := by
  decide
theorem witness_FinalChecksumReplacement : paddedSum (blk 0xFFFE 0 false false) ≠ 0xFFFF#16 ∧
    paddedSum (blk 0x00FF 0xFF true false) = 0xFFFF#16 := by decide
theorem witness_FinalChecksumClosedForm : (0x0001#16 : Word) ≠ 0x0000#16 ∧ (0xFFFF#16 : Word) ≠ 0x0000#16 := by decide
theorem witness_VerifyEquivalents : (0xFFFF#16 : Word) ≠ 0x0000#16 := by decide
theorem witness_SingleBitSensitivity : 2 < ([0x00#8, 0x00#8, 0xFF#8] : List Byte).length ∧ 7 < 8 := by decide
theorem witness_SuspendAndResume : (PhaseInv (blk 0xFFFF 0 false true) ∧ (blk 0xFFFF 0 false true).odd = false) ∧
    (PhaseInv (blk 0x6170 0x63 true false) ∧ (blk 0x6170 0x63 true false).odd = true) := by decide
theorem witness_SameFutureIsIndistinguishable : SameFuture (blk 0x6170 0x63 true false) (blk 0xC470 0x00 true false) ∧
    (∀ w ∈ [0x20064#20], decode w ≠ .command .rdst) := by
  refine ⟨by decide, fun w h => ?_⟩
  cases List.mem_singleton.mp h
  decide
theorem witness_PseudoInstructionsAbsorb : (blk 0xFFFF 0 false true).odd = false ∧ PhaseInv (blk 0xFFFF 0 false true) := by decide
theorem witness_AssemblerChecksRanges : 0xFF < 0x100 ∧ 0xFFFF < 0x10000 := by decide

/-- The constructed segment of the source's concrete scenario (E1). -/
def hi : Segment := seg 12345 80 [0x68, 0x69] 10

theorem witness_ConstructChecksInputs :
    ((0 : Int) ≤ 65535 ∧ (65535 : Int) ≤ 65535 ∧ (List.replicate 65507 0x00#8).length ≤ 65507) ∧
    ¬ ((0 : Int) ≤ 65536 ∧ (65536 : Int) ≤ 65535 ∧ (0 : Int) ≤ 0 ∧ (0 : Int) ≤ 65535) ∧
    65507 < (List.replicate 65508 0x00#8).length := by
  rw [List.length_replicate, List.length_replicate]
  decide
theorem witness_ChecksummedBytes : hi.length.toNat = 8 + hi.payload.length := by decide
theorem witness_ComputeChecksumIsFinalChecksum :
    absorbed [] [0x10000#20, 0x33039#20, 0x30050#20, 0x3000A#20, 0x30000#20, 0x20068#20, 0x20069#20] = checksumBytes hi := by decide
theorem witness_SerializeEmitsWireFormat : hi.length.toNat = 8 + hi.payload.length := by decide
theorem witness_DeserializeReadsHeader : ([] : List Byte).length < 8 ∧
    ((0x0008#16).toNat = 8 + ([] : List Byte).length ∧
      ¬ ((FramerConfig.mk true true true).decodePayloadCap = true ∧ 65507 < ([] : List Byte).length)) ∧
    ((0x0009#16).toNat ≠ 8 + ([] : List Byte).length) ∧
    ((0xFFEC#16).toNat = 8 + (List.replicate 65508 0x00#8).length ∧ 65507 < (List.replicate 65508 0x00#8).length) ∧
    ((0xFFEB#16).toNat ≠ 8 + (List.replicate 65508 0x00#8).length) := by
  rw [List.length_replicate]
  decide
theorem witness_IsChecksumValidRule : { hi with checksum := some 0x0000#16 }.checksum = some 0x0000#16 ∧ hi.checksum = none := by
  decide
theorem witness_LengthInvariant : construct ⟨true, true, true⟩ 12345 80 [0x68, 0x69] = .ok hi ∧
    (∃ r, deserialize ⟨true, true, true⟩ [0x30, 0x39, 0x00, 0x50, 0x00, 0x08, 0x00, 0x00] Block.reset = .ok r) :=
  ⟨by decide, _, rfl⟩
theorem witness_RoundTrip : construct ⟨false, false, false⟩ 12345 80 [0x68, 0x69] = .ok hi := by decide
theorem witness_BoundaryAndTruncation : (List.replicate 65507 0x00#8).length = 65507 ∧
    (List.replicate 65508 0x00#8).length = 65508 ∧ (List.replicate 7 0x00#8).length = 7 ∧
    (([0, 0, 0, 0, 0x00, 0x08, 0, 0] : List Byte).length = 8 ∧
      ([0, 0, 0, 0, 0x00, 0x08, 0, 0] : List Byte)[4]? = some 0x00#8 ∧ ([0, 0, 0, 0, 0x00, 0x08, 0, 0] : List Byte)[5]? = some 0x08#8) ∧
    ¬ ((List.replicate 8 0x00#8)[4]? = some 0x00#8 ∧ (List.replicate 8 0x00#8)[5]? = some 0x08#8) := by
  refine ⟨List.length_replicate, List.length_replicate, List.length_replicate, by decide, by decide⟩
theorem witness_FlippedBitIsDetected : construct ⟨false, false, false⟩ 12345 80 [0x68, 0x69] = .ok hi ∧
    (serialize hi Block.reset).1.1.length = 10 ∧ ((3 < 4 ∧ 3 < 10) ∧ (8 ≤ 9 ∧ 9 < 10) ∧ 5 < 10 ∧ 7 < 8) := by decide
theorem witness_ZeroChecksumIsValid :
    (∃ r, deserialize ⟨true, true, true⟩ (fieldBytes 0x3039 ++ fieldBytes 0x0050 ++ fieldBytes 0x000A ++ [0x00#8, 0x00#8] ++
      [0xFF, 0xFF]) Block.reset = .ok r) ∧
    ((0x000B#16).toNat ≠ 8 + ([0xFF#8, 0xFF#8] : List Byte).length ∧ ([0xFF#8, 0xFF#8] : List Byte).length ≤ 65507) :=
  ⟨⟨_, rfl⟩, by decide⟩
theorem witness_SegmentSumIsNeverZero : hi.length.toNat = 8 + hi.payload.length := by decide

end Sys2Proof.Tests
end

section
/-! PROOFS for 00_scope.md R8 and R9. The two equations of the loop of `fold16`, first under a bound on its turns and then
for `fold16` itself; then `oc_add` of two words as a `fold16` whose loop runs at most once. -/

namespace Sys2Proof.Machine

/-! ### The loop of `fold16` (R8) -/

theorem foldLoop_of_lt (turns : Nat) {x : Nat} (h : x < 65536) : foldLoop turns x = x := by
  cases turns with
  | zero => exact Nat.mod_eq_of_lt h
  | succ turns => exact if_pos h

theorem foldLoop_succ_of_ge (turns : Nat) {x : Nat} (h : 65536 ≤ x) :
    foldLoop (turns + 1) x = foldLoop turns (x % 65536 + x / 65536) :=
  if_neg (Nat.not_lt.mpr h)

theorem fold16_of_lt {x : Nat} (h : x < 65536) : fold16 x = BitVec.ofNat 16 x := by
  rw [fold16, foldLoop_of_lt x h]

/-- The turns left over after one turn are still enough, because the turn makes its number smaller. -/
theorem fold16_of_ge {x : Nat} (h : 65536 ≤ x) : fold16 x = fold16 (x % 65536 + x / 65536) := by
  have hturns : x - 1 + 1 = x := by omega
  have hsmaller : x % 65536 + x / 65536 ≤ x - 1 := by omega
  have hloop : foldLoop x x = foldLoop (x % 65536 + x / 65536) (x % 65536 + x / 65536) :=
    calc foldLoop x x = foldLoop (x - 1 + 1) x := by rw [hturns]
      _ = foldLoop (x - 1) (x % 65536 + x / 65536) := foldLoop_succ_of_ge _ h
      _ = foldLoop (x % 65536 + x / 65536) (x % 65536 + x / 65536) := foldLoop_enough _ _ _ hsmaller le_rfl
  rw [fold16, hloop, fold16]

/-- Settles O5: below the bound the loop takes no turn, from it on one turn leaves a smaller number. -/
theorem fold16IsTheLoop : Obligations.Fold16IsTheLoop :=
  fun _ => ⟨fold16_of_lt, fold16_of_ge⟩

/-! ### `oc_add` as a folded sum (R9) -/

/-- Where one turn gives a 16-bit number, that number is the result: a number below the bound is left as it is by a turn. -/
theorem fold16_toNat_of_turn_lt {x : Nat} (h : x % 65536 + x / 65536 < 65536) :
    (fold16 x).toNat = x % 65536 + x / 65536 := by
  rcases Nat.lt_or_ge x 65536 with hlt | hge
  · rw [fold16_of_lt hlt, BitVec.toNat_ofNat]
    omega
  · rw [fold16_of_ge hge, fold16_of_lt h, BitVec.toNat_ofNat, Nat.mod_eq_of_lt h]

theorem turn_add_words_lt (a b : Word) : (a.toNat + b.toNat) % 65536 + (a.toNat + b.toNat) / 65536 < 65536 := by
  have ha := a.isLt
  have hb := b.isLt
  omega

theorem ocAdd_toNat_eq_turn (a b : Word) :
    (ocAdd a b).toNat = (a.toNat + b.toNat) % 65536 + (a.toNat + b.toNat) / 65536 := by
  have ha := a.isLt
  have hb := b.isLt
  rw [ocAdd_toNat]
  split <;> omega

theorem ocAdd_eq_fold16 (a b : Word) : ocAdd a b = fold16 (a.toNat + b.toNat) := by
  apply BitVec.eq_of_toNat_eq
  rw [ocAdd_toNat_eq_turn, fold16_toNat_of_turn_lt (turn_add_words_lt a b)]

/-- Settles O6: one turn of the loop on the exact sum of two words gives a 16-bit number, which is `oc_add`. -/
theorem ocAddIsFoldedSum : Obligations.OcAddIsFoldedSum := by
  intro a b
  have hturn := turn_add_words_lt a b
  exact ⟨ocAdd_toNat_eq_turn a b, ocAdd_eq_fold16 a b, fun hcarry => by omega, hturn⟩

end Sys2Proof.Machine
end

section
/-! PROOFS for 10_state.md. What each command and each command word leave in the registers, said once; `fold16` in the closed
form of 40_accumulate.md R46, so that absorbing a byte is appending it to the stream; then the obligations about the state. -/

namespace Sys2Proof.Machine

/-! ### Commands and command words -/

theorem effect_block_of_isRead {i : Instr} (h : isRead i = true) (k : Block) : (effect i k).1 = k := by
  cases i with
  | nop | rdsum | rdcsum | verify _ | rdst => rfl
  | clr | addb _ | addw _ => cases h

@[simp] theorem isReserved_eq_true_iff (w : Command) : isReserved w = true ↔ ∃ r, decode w = .reserved r := by
  unfold isReserved
  split <;> simp [*]

/-- The two kinds of transaction, with what each does to the absorbed stream (R15). -/
theorem transact_cases (w : Command) :
    (∃ i, decode w = .command i ∧ isReserved w = false ∧ (∀ k, transact w k = effect i k) ∧
      ∀ bytes, absorbedByWord bytes w = absorbedBy bytes i) ∨
    (isReserved w = true ∧ (∀ k, transact w k = reject k) ∧ ∀ bytes, absorbedByWord bytes w = bytes) := by
  cases h : decode w with
  | command i =>
    exact .inl ⟨i, rfl, by simp [isReserved, h], transact_command h, fun _ => by simp [absorbedByWord, h]⟩
  | reserved r =>
    exact .inr ⟨by simp [isReserved, h], transact_reserved h, fun _ => by simp [absorbedByWord, h]⟩

@[simp] theorem absorbWord_phase (w : Word) (k : Block) : (absorbWord w k).odd = k.odd := by simp [absorbWord]

/-! ### `HOLD` at even phase (R12) -/

/-- A byte at even phase ends at odd phase, and one at odd phase clears `HOLD`: no premise is needed. -/
theorem phaseInv_absorbByte (b : Byte) (k : Block) : PhaseInv (absorbByte b k) := by
  intro heven
  have hodd : k.odd = true := by simpa using heven
  rw [absorbByte_odd b k hodd]

theorem phaseInv_effect (i : Instr) {k : Block} (h : PhaseInv k) : PhaseInv (effect i k).1 := by
  cases i with
  | nop | rdsum | rdcsum | verify _ | rdst => exact h
  | clr => exact fun _ => clearStream_hold k
  | addb b => exact phaseInv_absorbByte b k
  | addw w => exact phaseInv_absorbByte (lowByte w) _

theorem phaseInv_transact (w : Command) {k : Block} (h : PhaseInv k) : PhaseInv (transact w k).1 := by
  rcases transact_cases w with ⟨i, -, -, hw, -⟩ | ⟨-, hw, -⟩
  · rw [hw]
    exact phaseInv_effect i h
  · rw [hw]
    exact h

theorem phaseInv_reset : PhaseInv Block.reset := fun _ => reset_hold

/-- Settles O21: the phase invariant, over the three things a step can do. -/
theorem stepKeepsPhaseInv : Obligations.StepKeepsPhaseInv := by
  intro s t h hstep
  rcases step_cases hstep with ⟨-, rfl⟩ | ⟨rest, -, rfl⟩ | ⟨w, rest, -, rfl⟩
  · exact h
  · exact phaseInv_reset
  · exact phaseInv_transact w h

/-- Settles O22: reset clears `HOLD`. -/
theorem resetPhaseInv : Obligations.ResetPhaseInv := phaseInv_reset

/-! ### `ERR` (R14) -/

@[simp] theorem effect_err (i : Instr) (k : Block) : (effect i k).1.err = k.err := by
  cases i with
  | nop | rdsum | rdcsum | verify _ | rdst => rfl
  | clr => exact clearStream_err k
  | addb b => exact absorbByte_err b k
  | addw w => exact absorbWord_err w k

theorem transact_err (w : Command) (k : Block) : (transact w k).1.err = (k.err || isReserved w) := by
  rcases transact_cases w with ⟨i, -, hr, hw, -⟩ | ⟨hr, hw, -⟩ <;> simp [hr, hw]

/-- Settles O24: a command word sets `ERR` exactly when it is reserved, and only a reset writes it otherwise. -/
theorem errIsSticky : Obligations.ErrIsSticky := by
  intro s t hstep
  rcases step_cases hstep with ⟨hp, rfl⟩ | ⟨rest, hp, rfl⟩ | ⟨w, rest, hp, rfl⟩
  · simp [hp]
  · simp [hp]
  · simp [hp, Faulted, transact_err]

theorem absorbByte_with_err (b : Byte) (k : Block) (e : Bool) :
    absorbByte b { k with err := e } = { absorbByte b k with err := e } := by
  obtain ⟨sum, hold, odd, err⟩ := k
  cases odd <;> rfl

theorem effect_block_with_err (i : Instr) (k : Block) (e : Bool) :
    (effect i { k with err := e }).1 = { (effect i k).1 with err := e } := by
  cases i with
  | nop | clr | rdsum | rdcsum | verify _ | rdst => rfl
  | addb b => exact absorbByte_with_err b k e
  | addw w => simp only [effect, addwEffect, absorbWord, absorbByte_with_err]

theorem effect_response_with_err {i : Instr} (h : i ≠ .rdst) (k : Block) (e : Bool) :
    (effect i { k with err := e }).2 = (effect i k).2 := by
  cases i with
  | nop | clr | addb _ | addw _ | rdsum | rdcsum | verify _ => rfl
  | rdst => exact absurd rfl h

/-- Above its two flags the status word holds `HOLD` and six zeros (R18). -/
theorem statusWord_getLsbD_of_ge {n : Nat} (h : 2 ≤ n) (k : Block) :
    (statusWord k).getLsbD n = (k.hold ++ 0#6 : BitVec 14).getLsbD (n - 2) := by
  rw [statusWord, BitVec.getLsbD_append, if_neg (by omega)]

theorem statusWord_getLsbD_with_err {n : Nat} (h : n ≠ 1) (k : Block) (e : Bool) :
    (statusWord { k with err := e }).getLsbD n = (statusWord k).getLsbD n := by
  rcases Nat.lt_or_ge n 2 with hlt | hge
  · obtain rfl : n = 0 := by omega
    rw [statusWord_odd, statusWord_odd]
  · rw [statusWord_getLsbD_of_ge hge, statusWord_getLsbD_of_ge hge]

theorem effect_response_getLsbD_with_err (i : Instr) {n : Nat} (h : n ≠ 1) (k : Block) (e : Bool) :
    (effect i { k with err := e }).2.getLsbD n = (effect i k).2.getLsbD n := by
  by_cases hi : i = .rdst
  · subst hi
    exact statusWord_getLsbD_with_err h k e
  · rw [effect_response_with_err hi]

/-- Settles O25: no command but RDST reads `ERR`, and RDST reads it into bit 1 alone. -/
theorem errDoesNotGate : Obligations.ErrDoesNotGate := by
  intro i s err
  exact ⟨_, _, (effect i s.block).2, (effect i { s.block with err := err }).2,
    exec_eq_complete_effect i s, exec_eq_complete_effect i _, effect_block_with_err i s.block err, rfl, rfl, rfl,
    fun hi => effect_response_with_err hi s.block err,
    fun n hn => effect_response_getLsbD_with_err i hn s.block err⟩

/-! ### What CLR, ADDB and ADDW leave unchanged (R10) -/

theorem effect_response_of_not_isRead {i : Instr} (h : isRead i = false) (k : Block) : (effect i k).2 = 0x0000#16 := by
  cases i with
  | clr | addb _ | addw _ => rfl
  | nop | rdsum | rdcsum | verify _ | rdst => cases h

theorem absorbByte_sum_of_even (b : Byte) {k : Block} (h : k.odd = false) : (absorbByte b k).sum = k.sum := by
  rw [absorbByte_even b k h]

/-- Settles O35: the transaction of an accumulate command, field by field. -/
theorem accumulateFrame : Obligations.AccumulateFrame := by
  intro i s t hi hexec
  rw [exec_eq_complete_effect] at hexec
  cases hexec
  refine ⟨effect_err i s.block, rfl, ?_, ?_, ?_⟩
  · rw [complete_responses, effect_response_of_not_isRead hi]
  · rintro ⟨b, rfl⟩
    exact ⟨absorbByte_phase b s.block, absorbByte_sum_of_even b⟩
  · rintro ⟨w, rfl⟩
    exact absorbWord_phase w s.block

/-! ### `fold16` and `oc_add` in closed form (40_accumulate.md R46) -/

/-- One turn of the loop keeps the value of `ocsum`, because 65536 is 1 modulo 65535. -/
theorem ocsum_turn (x : Nat) : ocsum (x % 65536 + x / 65536) = ocsum x := by
  unfold ocsum
  split <;> split <;> omega

theorem ocsum_of_lt {x : Nat} (h : x < 65536) : ocsum x = x := by
  unfold ocsum
  split <;> omega

theorem fold16_toNat_eq_ocsum (x : Nat) : (fold16 x).toNat = ocsum x := by
  induction x using Nat.strong_induction_on with
  | h x ih =>
    rcases Nat.lt_or_ge x 65536 with hlt | hge
    · rw [fold16_of_lt hlt, BitVec.toNat_ofNat, Nat.mod_eq_of_lt hlt, ocsum_of_lt hlt]
    · rw [fold16_of_ge hge, ih _ (by omega), ocsum_turn]

theorem ocsum_ocsum_add (t n : Nat) : ocsum (ocsum t + n) = ocsum (t + n) := by
  unfold ocsum
  split <;> split <;> split <;> omega

/-- Adding a word to a folded sum is folding the exact sum with the word in it. -/
theorem ocAdd_fold16 (t : Nat) (w : Word) : ocAdd (fold16 t) w = fold16 (t + w.toNat) := by
  apply BitVec.eq_of_toNat_eq
  rw [ocAdd_eq_fold16, fold16_toNat_eq_ocsum, fold16_toNat_eq_ocsum, fold16_toNat_eq_ocsum, ocsum_ocsum_add]

/-! ### The registers as a function of the absorbed stream (R15) -/

theorem heldByte_append_singleton_of_even {bytes : List Byte} (h : bytes.length % 2 = 0) (b : Byte) :
    heldByte (bytes ++ [b]) = b := by
  have hodd : (bytes.length + 1) % 2 = 1 := by omega
  simp [heldByte, hodd]

theorem getLast?_eq_some_heldByte {bytes : List Byte} (h : bytes.length % 2 = 1) :
    bytes.getLast? = some (heldByte bytes) := by
  obtain ⟨front, b, rfl, -, hheld⟩ := odd_stream_split bytes h
  rw [hheld, List.getLast?_concat]

theorem completeWords_append_singleton_of_even {bytes : List Byte} (h : bytes.length % 2 = 0) (b : Byte) :
    completeWords (bytes ++ [b]) = completeWords bytes := by
  rw [completeWords_append_even bytes [b] h]
  exact List.append_nil _

/-- A byte after an odd stream completes the word its held byte began. -/
theorem completeWords_append_singleton_of_odd {bytes : List Byte} (h : bytes.length % 2 = 1) (b : Byte) :
    completeWords (bytes ++ [b]) = completeWords bytes ++ [wordOf (heldByte bytes) b] := by
  obtain ⟨front, c, rfl, heven, hheld⟩ := odd_stream_split bytes h
  rw [hheld, completeWords_append_singleton_of_even heven, List.append_assoc,
    completeWords_append_even front _ heven]
  rfl

theorem blockOf_of_even {bytes : List Byte} (h : bytes.length % 2 = 0) (err : Bool) :
    blockOf bytes err = { sum := fold16 (exactSum (completeWords bytes)), hold := 0x00#8, odd := false, err := err } := by
  simp [blockOf, heldByte_even bytes h, h]

theorem blockOf_of_odd {bytes : List Byte} (h : bytes.length % 2 = 1) (err : Bool) :
    blockOf bytes err =
      { sum := fold16 (exactSum (completeWords bytes)), hold := heldByte bytes, odd := true, err := err } := by
  simp [blockOf, h]

theorem phaseInv_blockOf (bytes : List Byte) (err : Bool) : PhaseInv (blockOf bytes err) := by
  intro hphase
  have heven : bytes.length % 2 = 0 := by simpa [blockOf] using hphase
  exact heldByte_even bytes heven

theorem absorbByte_blockOf (b : Byte) (bytes : List Byte) (err : Bool) :
    absorbByte b (blockOf bytes err) = blockOf (bytes ++ [b]) err := by
  rcases Nat.mod_two_eq_zero_or_one bytes.length with heven | hodd
  · have hnext : (bytes ++ [b]).length % 2 = 1 := by rw [List.length_append, List.length_singleton]; omega
    rw [blockOf_of_even heven, absorbByte_even _ _ rfl, blockOf_of_odd hnext,
      completeWords_append_singleton_of_even heven, heldByte_append_singleton_of_even heven]
  · have hnext : (bytes ++ [b]).length % 2 = 0 := by rw [List.length_append, List.length_singleton]; omega
    rw [blockOf_of_odd hodd, absorbByte_odd _ _ rfl, blockOf_of_even hnext, ocAdd_fold16,
      completeWords_append_singleton_of_odd hodd, exactSum_append, exactSum_cons, exactSum_nil, Nat.add_zero]

theorem absorbWord_blockOf (w : Word) (bytes : List Byte) (err : Bool) :
    absorbWord w (blockOf bytes err) = blockOf (bytes ++ [highByte w, lowByte w]) err := by
  rw [absorbWord, absorbByte_blockOf, absorbByte_blockOf, List.append_assoc]
  rfl

theorem clearStream_eq_blockOf_nil (k : Block) : clearStream k = blockOf [] k.err := by
  rw [blockOf_of_even rfl]
  rfl

theorem effect_blockOf (i : Instr) (bytes : List Byte) (err : Bool) :
    (effect i (blockOf bytes err)).1 = blockOf (absorbedBy bytes i) err := by
  cases i with
  | nop | rdsum | rdcsum | verify _ | rdst => rfl
  | clr => exact clearStream_eq_blockOf_nil _
  | addb b => exact absorbByte_blockOf b bytes err
  | addw w => exact absorbWord_blockOf w bytes err

theorem transact_blockOf (w : Command) (bytes : List Byte) (err : Bool) :
    (transact w (blockOf bytes err)).1 = blockOf (absorbedByWord bytes w) (err || isReserved w) := by
  rcases transact_cases w with ⟨i, -, hr, hw, habs⟩ | ⟨hr, hw, habs⟩
  · rw [hw, habs, hr, Bool.or_false, effect_blockOf]
  · rw [hw, habs, hr, Bool.or_true]
    rfl

theorem runCommands_blockOf (ws : List Command) (bytes : List Byte) (err : Bool) :
    (runCommands ws (blockOf bytes err)).1 = blockOf (absorbed bytes ws) (err || ws.any isReserved) := by
  induction ws generalizing bytes err with
  | nil => simp [absorbed]
  | cons w ws ih =>
    calc (runCommands (w :: ws) (blockOf bytes err)).1
        = (runCommands ws (transact w (blockOf bytes err)).1).1 := rfl
      _ = blockOf (absorbed (absorbedByWord bytes w) ws) ((err || isReserved w) || ws.any isReserved) := by
          rw [transact_blockOf, ih]
      _ = blockOf (absorbed bytes (w :: ws)) (err || (w :: ws).any isReserved) := by
          rw [Bool.or_assoc, List.any_cons]
          rfl

/-- The three registers of R15 determine the block, `ERR` being the same. -/
theorem blockOf_congr {bytes bytes' : List Byte} {err : Bool} (hsum : (blockOf bytes err).sum = (blockOf bytes' err).sum)
    (hhold : (blockOf bytes err).hold = (blockOf bytes' err).hold)
    (hodd : (blockOf bytes err).odd = (blockOf bytes' err).odd) : blockOf bytes err = blockOf bytes' err := by
  rw [blockOf, blockOf, Block.mk.injEq]
  exact ⟨hsum, hhold, hodd, rfl⟩

/-- Settles O23: every command word appends to the stream what it absorbs, by `ocAdd_fold16`; the rest is induction on the run. -/
theorem absorbedStreamAbstraction : Obligations.AbsorbedStreamAbstraction := by
  refine ⟨fun bytes err => ⟨?_, getLast?_eq_some_heldByte, heldByte_even bytes, rfl, phaseInv_blockOf bytes err⟩,
    clearStream_eq_blockOf_nil Block.reset, clearStream_eq_blockOf_nil, runCommands_blockOf, ?_⟩
  · exact Bool.beq_eq_decide_eq _ _
  · intro bytes bytes' err ws hsum hhold hodd
    rw [blockOf_congr hsum hhold hodd]

/-! ### Reset (R19) -/

/-- Settles O13: CLR sets every register but `ERR` to its reset value. -/
theorem resetRegisters : Obligations.ResetRegisters := ⟨rfl, fun _ => rfl⟩

end Sys2Proof.Machine
end

section
/-! PROOFS for 20_memory.md. The commands R25 says have no side effect: their frame is the registers and the pending events,
and a transaction adds one response. -/

namespace Sys2Proof.Machine

/-- Settles O36: the transaction of a read gives back the registers it was given, and completing it appends its response. -/
theorem readFrame : Obligations.ReadFrame := by
  intro i s t hi hexec
  rw [exec_eq_complete_effect] at hexec
  cases hexec
  exact ⟨effect_block_of_isRead hi s.block, complete_pending s _, (effect i s.block).2, complete_responses s _⟩

end Sys2Proof.Machine
end

section
/-! PROOFS for 30_encoding.md R31 and R39. A command word as its two fields; decode by the opcode field, said once in
`decode_cases`; then decode as the inverse of encode. -/

namespace Sys2Proof

open Sys2Proof.Machine
open Sys2Proof.Laws.RowSelects (fields_of_encode)

/-! ### The fields of a command word (R31) -/

@[simp] theorem opField_encode (i : Instr) : opField (encode i) = opcodeOf i := (fields_of_encode i).1

@[simp] theorem argField_encode (i : Instr) : argField (encode i) = argOf i := (fields_of_encode i).2

theorem opField_append_argField (w : Command) : opField w ++ argField w = w :=
  (BitVec.extractLsb'_append_extractLsb'_eq_extractLsb' rfl).trans BitVec.extractLsb'_eq_self

theorem opField_toNat (w : Command) : (opField w).toNat = w.toNat / 65536 := by
  have hw := w.isLt
  rw [opField, BitVec.extractLsb'_toNat, Nat.shiftRight_eq_div_pow]
  omega

theorem argField_toNat (w : Command) : (argField w).toNat = w.toNat % 65536 := by
  rw [argField, BitVec.extractLsb'_toNat, Nat.shiftRight_zero]

theorem encode_eq_iff (i : Instr) (w : Command) : encode i = w ↔ opField w = opcodeOf i ∧ argField w = argOf i := by
  constructor
  · rintro rfl
    exact fields_of_encode i
  · rintro ⟨hop, harg⟩
    rw [encode, ← hop, ← harg, opField_append_argField]

theorem encode_toNat (i : Instr) : (encode i).toNat = (opcodeOf i).toNat * 65536 + (argOf i).toNat := by
  rw [encode, BitVec.toNat_append, ← Nat.shiftLeft_add_eq_or_of_lt (argOf i).isLt, Nat.shiftLeft_eq]

theorem byteArg_toNat (b : Byte) : (0x00#8 ++ b : Word).toNat = b.toNat := by
  change (wordOf 0x00#8 b).toNat = b.toNat
  simp [wordOf_toNat]

theorem admits_z_iff (arg : Word) : Form.z.admits arg = true ↔ arg = 0x0000#16 := beq_iff_eq

theorem admits_b_iff (arg : Word) : Form.b.admits arg = true ↔ highByte arg = 0x00#8 := beq_iff_eq

/-! ### Decode by the opcode field (R39) -/

/-- The command of `i`'s opcode with its operand read from the argument field `arg` (R33). -/
def withArg (i : Instr) (arg : Word) : Instr :=
  match i with
  | .addb _ => .addb (lowByte arg)
  | .addw _ => .addw arg
  | .verify _ => .verify arg
  | .nop | .clr | .rdsum | .rdcsum | .rdst => i

@[simp] theorem opcodeOf_withArg (i : Instr) (arg : Word) : opcodeOf (withArg i arg) = opcodeOf i := by
  cases i <;> rfl

theorem argOf_withArg {i : Instr} {arg : Word} (h : (formOf i).admits arg = true) : argOf (withArg i arg) = arg := by
  cases i with
  | nop | clr | rdsum | rdcsum | rdst => exact ((admits_z_iff arg).mp h).symm
  | addw _ | verify _ => rfl
  | addb b =>
    calc argOf (.addb (lowByte arg)) = wordOf (highByte arg) (lowByte arg) := by rw [(admits_b_iff arg).mp h]; rfl
      _ = arg := wordOf_highByte_lowByte arg

theorem admits_argOf (i : Instr) : (formOf i).admits (argOf i) = true := by
  cases i with
  | nop | clr | rdsum | rdcsum | rdst | addw _ | verify _ => rfl
  | addb b => exact (admits_b_iff _).mpr (highByte_wordOf 0x00#8 b)

theorem withArg_argOf (i : Instr) : withArg i (argOf i) = i := by
  cases i with
  | nop | clr | rdsum | rdcsum | rdst | addw _ | verify _ => rfl
  | addb b => exact congrArg Instr.addb (lowByte_wordOf 0x00#8 b)

theorem decode_of_admits {w : Command} {i : Instr} (hop : opField w = opcodeOf i)
    (harg : (formOf i).admits (argField w) = true) : decode w = .command (withArg i (argField w)) := by
  cases i <;> simp only [formOf] at harg <;> simp [decode, hop, harg, opcodeOf, withArg, lowByte]

theorem decode_of_not_admits {w : Command} {i : Instr} (hop : opField w = opcodeOf i)
    (harg : (formOf i).admits (argField w) = false) : decode w = .reserved .argument := by
  cases i <;> simp only [formOf] at harg <;> simp [decode, hop, harg, opcodeOf]

theorem decode_of_opField_ge {w : Command} (h : 0x8#4 ≤ opField w) : decode w = .reserved .opcode := by
  have hne : ∀ op : BitVec 4, op < 0x8#4 → opField w ≠ op := fun op hop heq => by
    rw [heq] at h
    exact absurd hop (BitVec.not_lt.mpr h)
  simp [decode, hne, BitVec.not_lt.mpr h]

/-- One command for each row of the opcode map, in its order (R34). -/
def rowCommands : List Instr := [.nop, .clr, .addb 0, .addw 0, .rdsum, .rdcsum, .verify 0, .rdst]

theorem exists_opcodeOf_eq {op : BitVec 4} (h : op < 0x8#4) : ∃ i, op = opcodeOf i := by
  have hall : ∀ op < 0x8#4, ∃ i ∈ rowCommands, op = opcodeOf i := by decide
  obtain ⟨i, -, hi⟩ := hall op h
  exact ⟨i, hi⟩

/-- Everything decode can answer. -/
theorem decode_cases (w : Command) :
    (∃ i, decode w = .command i ∧ encode i = w) ∨
    (∃ i, decode w = .reserved .argument ∧ opField w = opcodeOf i ∧ (formOf i).admits (argField w) = false) ∨
    (decode w = .reserved .opcode ∧ 0x8#4 ≤ opField w) := by
  by_cases hop : 0x8#4 ≤ opField w
  · exact .inr (.inr ⟨decode_of_opField_ge hop, hop⟩)
  obtain ⟨i, hi⟩ := exists_opcodeOf_eq (BitVec.not_le.mp hop)
  cases harg : (formOf i).admits (argField w) with
  | false => exact .inr (.inl ⟨i, decode_of_not_admits hi harg, hi, harg⟩)
  | true =>
    refine .inl ⟨withArg i (argField w), decode_of_admits hi harg, (encode_eq_iff _ w).mpr ⟨?_, ?_⟩⟩
    · rw [opcodeOf_withArg, hi]
    · rw [argOf_withArg harg]

theorem decode_encode (i : Instr) : decode (encode i) = .command i := by
  have harg : (formOf i).admits (argField (encode i)) = true := by rw [argField_encode, admits_argOf]
  rw [decode_of_admits (opField_encode i) harg, argField_encode, withArg_argOf]

theorem decode_eq_command_iff (w : Command) (i : Instr) : decode w = .command i ↔ encode i = w := by
  constructor
  · intro h
    rcases decode_cases w with ⟨j, hj, hw⟩ | ⟨j, hj, -⟩ | ⟨hj, -⟩
    · obtain rfl : j = i := by simpa [hj] using h
      exact hw
    · simp [hj] at h
    · simp [hj] at h
  · rintro rfl
    exact decode_encode i

theorem decode_eq_command_iff_toNat (w : Command) (i : Instr) :
    decode w = .command i ↔ w.toNat = (opcodeOf i).toNat * 65536 + (argOf i).toNat := by
  rw [decode_eq_command_iff, ← BitVec.toNat_inj, encode_toNat, eq_comm]

theorem exists_reserved_iff (w : Command) : (∃ r, decode w = .reserved r) ↔ ∀ i, decode w ≠ .command i := by
  cases decode w with
  | command i => simp
  | reserved r => simp

/-- Settles O1: a word decodes to the command that encodes to it, and the encoding's number is the opcode's and the operand's. -/
theorem decodeEncodeAgree : Obligations.DecodeEncodeAgree := by
  refine ⟨fun w => ⟨?_, ?_, fun b => ?_, fun v => ?_, ?_, ?_, fun c => ?_, ?_, exists_reserved_iff w⟩,
    decode_encode, fun w i => (decode_eq_command_iff w i).mp⟩
  all_goals simp [decode_eq_command_iff_toNat, opcodeOf, argOf, byteArg_toNat]

end Sys2Proof
end

section
/-! PROOFS for 30_encoding.md R34 and R35: the words each row of the opcode map selects, the two kinds of reserved words, and
how many words there are of each kind. -/

namespace Sys2Proof

open Sys2Proof.Machine

/-! ### The words the rows select (R34) -/

/-- A mask of the leading bits fixes them and leaves the rest free. -/
theorem and_leading_mask_eq_iff {m n : Nat} (w : BitVec (m + n)) (hi : BitVec m) :
    w &&& (BitVec.allOnes m ++ 0#n) = hi ++ 0#n ↔ ∃ lo : BitVec n, w = hi ++ lo := by
  have hmask : ∀ (hi' : BitVec m) (lo : BitVec n), (hi' ++ lo) &&& (BitVec.allOnes m ++ 0#n) = hi' ++ 0#n := by
    intro hi' lo
    rw [BitVec.and_append, BitVec.and_allOnes, BitVec.and_zero]
  constructor
  · intro h
    have hsplit : w.extractLsb' n m ++ w.extractLsb' 0 n = w :=
      (BitVec.extractLsb'_append_extractLsb'_eq_extractLsb' (by simp)).trans BitVec.extractLsb'_eq_self
    rw [← hsplit, hmask, BitVec.append_left_inj] at h
    exact ⟨w.extractLsb' 0 n, by rw [← h, hsplit]⟩
  · rintro ⟨lo, rfl⟩
    exact hmask hi lo

/-- A mask of all 20 bits selects one word. -/
theorem word_mask_iff (w : Command) (i : Instr) : w &&& 0xFFFFF#20 = encode i ↔ decode w = .command i := by
  have hmask : 0xFFFFF#20 = BitVec.allOnes 20 := by decide
  rw [hmask, BitVec.and_allOnes, decode_eq_command_iff, eq_comm]

theorem encode_addb (b : Byte) : encode (.addb b) = 0x200#12 ++ b := by
  apply BitVec.eq_of_toNat_eq
  rw [encode_toNat, BitVec.toNat_append, ← Nat.shiftLeft_add_eq_or_of_lt b.isLt, Nat.shiftLeft_eq]
  simp [opcodeOf, argOf, byteArg_toNat]

theorem addb_mask_iff (w : Command) : w &&& 0xFFF00#20 = 0x20000#20 ↔ ∃ b, decode w = .command (.addb b) := by
  have hmask : 0xFFF00#20 = BitVec.allOnes 12 ++ 0#8 := by decide
  have hvalue : 0x20000#20 = 0x200#12 ++ 0#8 := by decide
  rw [hmask, hvalue]
  refine (and_leading_mask_eq_iff (m := 12) (n := 8) w 0x200#12).trans (exists_congr fun b => ?_)
  rw [decode_eq_command_iff, encode_addb, eq_comm]

/-- A mask of the opcode bits selects one opcode with any argument. -/
theorem opcode_mask_iff (w : Command) (op : BitVec 4) :
    w &&& 0xF0000#20 = op ++ 0x0000#16 ↔ ∃ arg : Word, op ++ arg = w := by
  have hmask : 0xF0000#20 = BitVec.allOnes 4 ++ 0#16 := by decide
  rw [hmask]
  exact (and_leading_mask_eq_iff (m := 4) (n := 16) w op).trans (exists_congr fun arg => eq_comm)

theorem addw_mask_iff (w : Command) : w &&& 0xF0000#20 = 0x30000#20 ↔ ∃ v, decode w = .command (.addw v) := by
  have hvalue : 0x30000#20 = 0x3#4 ++ 0x0000#16 := by decide
  rw [hvalue, opcode_mask_iff]
  exact exists_congr fun v => (decode_eq_command_iff w (.addw v)).symm

theorem verify_mask_iff (w : Command) : w &&& 0xF0000#20 = 0x60000#20 ↔ ∃ c, decode w = .command (.verify c) := by
  have hvalue : 0x60000#20 = 0x6#4 ++ 0x0000#16 := by decide
  rw [hvalue, opcode_mask_iff]
  exact exists_congr fun c => (decode_eq_command_iff w (.verify c)).symm

/-- The words a row selects decode to commands of its opcode. -/
theorem opField_of_selects {i : Instr} {w : Command} (h : (rowOf i).selects w = true) : opField w = opcodeOf i := by
  have hcommand : ∃ j, opcodeOf j = opcodeOf i ∧ decode w = .command j := by
    rw [OpcodeRow.selects, beq_iff_eq] at h
    cases i with
    | nop | clr | rdsum | rdcsum | rdst => exact ⟨_, rfl, (word_mask_iff w _).mp h⟩
    | addb _ =>
      obtain ⟨b, hb⟩ := (addb_mask_iff w).mp h
      exact ⟨.addb b, rfl, hb⟩
    | addw _ =>
      obtain ⟨v, hv⟩ := (addw_mask_iff w).mp h
      exact ⟨.addw v, rfl, hv⟩
    | verify _ =>
      obtain ⟨c, hc⟩ := (verify_mask_iff w).mp h
      exact ⟨.verify c, rfl, hc⟩
  obtain ⟨j, hj, hdecode⟩ := hcommand
  rw [← hj, ← (decode_eq_command_iff w j).mp hdecode, opField_encode]

theorem opcodeMap_eq_map : opcodeMap = rowCommands.map rowOf := rfl

theorem opcodeMap_disjoint : opcodeMap.Pairwise fun r r' => ∀ w, ¬ (r.selects w = true ∧ r'.selects w = true) := by
  have hopcodes : rowCommands.Pairwise fun i j => opcodeOf i ≠ opcodeOf j := by decide
  rw [opcodeMap_eq_map, List.pairwise_map]
  refine hopcodes.imp fun hne w ⟨hi, hj⟩ => hne ?_
  rw [← opField_of_selects hi, ← opField_of_selects hj]

/-! ### The two kinds of reserved words (R35) -/

theorem decode_eq_reserved_opcode_iff (w : Command) : decode w = .reserved .opcode ↔ 0x8#4 ≤ opField w := by
  refine ⟨fun h => ?_, decode_of_opField_ge⟩
  rcases decode_cases w with ⟨i, hi, -⟩ | ⟨i, hi, -⟩ | ⟨-, hop⟩
  · simp [hi] at h
  · simp [hi] at h
  · exact hop

theorem decode_eq_reserved_argument_iff (w : Command) :
    decode w = .reserved .argument ↔ ∃ i, opField w = opcodeOf i ∧ (formOf i).admits (argField w) = false := by
  refine ⟨fun h => ?_, fun ⟨i, hop, harg⟩ => decode_of_not_admits hop harg⟩
  rcases decode_cases w with ⟨i, hi, -⟩ | ⟨i, -, hop, harg⟩ | ⟨hi, -⟩
  · simp [hi] at h
  · exact ⟨i, hop, harg⟩
  · simp [hi] at h

theorem opField_eq_iff (w : Command) (op : BitVec 4) : opField w = op ↔ w.toNat / 65536 = op.toNat := by
  rw [← BitVec.toNat_inj, opField_toNat]

theorem not_admits_z_iff (w : Command) : Form.z.admits (argField w) = false ↔ w.toNat % 65536 ≠ 0 := by
  rw [← Bool.not_eq_true, admits_z_iff, ← BitVec.toNat_inj, argField_toNat]
  rfl

theorem not_admits_b_iff (w : Command) : Form.b.admits (argField w) = false ↔ w.toNat % 65536 / 256 ≠ 0 := by
  rw [← Bool.not_eq_true, admits_b_iff, ← BitVec.toNat_inj, highByte_toNat, argField_toNat]
  rfl

theorem decode_eq_reserved_opcode_iff_toNat (w : Command) : decode w = .reserved .opcode ↔ 8 ≤ w.toNat / 65536 := by
  rw [decode_eq_reserved_opcode_iff, BitVec.le_def, opField_toNat]
  rfl

theorem decode_eq_reserved_argument_iff_toNat (w : Command) :
    decode w = .reserved .argument ↔
      ((w.toNat / 65536 = 0 ∨ w.toNat / 65536 = 1 ∨ w.toNat / 65536 = 4 ∨ w.toNat / 65536 = 5 ∨ w.toNat / 65536 = 7) ∧
        w.toNat % 65536 ≠ 0) ∨
      (w.toNat / 65536 = 2 ∧ w.toNat % 65536 / 256 ≠ 0) := by
  rw [decode_eq_reserved_argument_iff, ← not_admits_z_iff, ← not_admits_b_iff]
  simp only [opField_eq_iff]
  constructor
  · rintro ⟨i, hop, harg⟩
    cases i with
    | nop | clr | rdsum | rdcsum | rdst => exact .inl ⟨by simp [hop, opcodeOf], harg⟩
    | addb _ => exact .inr ⟨hop, harg⟩
    | addw _ | verify _ => cases harg
  · rintro (⟨hop | hop | hop | hop | hop, harg⟩ | ⟨hop, harg⟩)
    · exact ⟨.nop, hop, harg⟩
    · exact ⟨.clr, hop, harg⟩
    · exact ⟨.rdsum, hop, harg⟩
    · exact ⟨.rdcsum, hop, harg⟩
    · exact ⟨.rdst, hop, harg⟩
    · exact ⟨.addb 0, hop, harg⟩

/-! ### How many words there are of each kind (R34, R35) -/

theorem card_bitVec (n : Nat) : Nat.card (BitVec n) = 2 ^ n := by
  rw [Nat.card_eq_fintype_card, ← FinEnum.card_eq_fintypeCard, FinEnum.card_bitVec]

/-- The commands by their operand form: five without an operand, those with a byte, those with a word. -/
def instrEquivSum : Instr ≃ Fin 5 ⊕ Byte ⊕ Word ⊕ Word where
  toFun
    | .nop => .inl 0
    | .clr => .inl 1
    | .rdsum => .inl 2
    | .rdcsum => .inl 3
    | .rdst => .inl 4
    | .addb b => .inr (.inl b)
    | .addw w => .inr (.inr (.inl w))
    | .verify c => .inr (.inr (.inr c))
  invFun
    | .inl n => ![.nop, .clr, .rdsum, .rdcsum, .rdst] n
    | .inr (.inl b) => .addb b
    | .inr (.inr (.inl w)) => .addw w
    | .inr (.inr (.inr c)) => .verify c
  left_inv i := by cases i <;> rfl
  right_inv
    | .inl n => by fin_cases n <;> rfl
    | .inr (.inl _) | .inr (.inr (.inl _)) | .inr (.inr (.inr _)) => rfl

theorem card_instr : Nat.card Instr = 131333 := by
  rw [Nat.card_congr instrEquivSum, Nat.card_sum, Nat.card_sum, Nat.card_sum, Nat.card_fin, card_bitVec, card_bitVec]
  rfl

theorem encode_injective : Function.Injective encode := by
  intro i j h
  have hdecode := decode_encode i
  rw [h, decode_encode] at hdecode
  exact (Decoded.command.inj hdecode).symm

/-- The words that decode to a command are the image of encode. -/
theorem card_command_words : Nat.card { w : Command // ∃ i, decode w = .command i } = 131333 := by
  have hwords : ∀ w : Command, (∃ i, decode w = .command i) ↔ w ∈ Set.range encode := fun w =>
    exists_congr fun i => decode_eq_command_iff w i
  rw [Nat.card_congr (Equiv.subtypeEquivRight hwords), ← card_instr]
  exact (Nat.card_congr (Equiv.ofInjective encode encode_injective)).symm

theorem card_reserved_words : Nat.card { w : Command // ∃ r, decode w = .reserved r } = 917243 := by
  classical
  have hwords : ∀ w : Command, (∃ r, decode w = .reserved r) ↔ ¬ ∃ i, decode w = .command i := fun w =>
    (exists_reserved_iff w).trans not_exists.symm
  have hall := Nat.card_congr (Equiv.sumCompl fun w : Command => ∃ i, decode w = .command i)
  rw [Nat.card_sum, card_command_words, card_bitVec] at hall
  rw [Nat.card_congr (Equiv.subtypeEquivRight hwords)]
  omega

/-- A command word is its two fields. -/
def wordEquivFields : Command ≃ BitVec 4 × Word where
  toFun w := (opField w, argField w)
  invFun p := p.1 ++ p.2
  left_inv := opField_append_argField
  right_inv _ := Prod.ext BitVec.extractLsb'_append_eq_left BitVec.extractLsb'_append_eq_right

theorem card_reserved_opcode_words : Nat.card { w : Command // decode w = .reserved .opcode } = 524288 := by
  have hopcodes : Nat.card { op : BitVec 4 // 0x8#4 ≤ op } = 8 := by
    rw [Nat.card_eq_fintype_card]
    decide
  have hfields : { w : Command // decode w = .reserved .opcode } ≃ { op : BitVec 4 // 0x8#4 ≤ op } × Word :=
    (wordEquivFields.subtypeEquiv decode_eq_reserved_opcode_iff).trans Equiv.prodSubtypeFstEquivSubtypeProd
  rw [Nat.card_congr hfields, Nat.card_prod, hopcodes, card_bitVec]
  rfl

theorem card_reserved_argument_words :
    Nat.card { w : Command // decode w = .reserved .argument } = 5 * 65535 + 65280 := by
  classical
  have hkinds : ∀ w : Command,
      (∃ r, decode w = .reserved r) ↔ decode w = .reserved .opcode ∨ decode w = .reserved .argument := fun w =>
    ⟨fun ⟨r, hr⟩ => by cases r <;> simp [hr], fun h => h.elim (fun h => ⟨_, h⟩) (fun h => ⟨_, h⟩)⟩
  have hdisjoint : Disjoint (fun w => decode w = .reserved .opcode) (fun w => decode w = .reserved .argument) :=
    disjoint_iff_inf_le.mpr fun w ⟨hopcode, hargument⟩ => by simp [hopcode] at hargument
  have hall := card_reserved_words
  rw [Nat.card_congr (Equiv.subtypeEquivRight hkinds), Nat.card_congr (subtypeOrEquiv _ _ hdisjoint), Nat.card_sum,
    card_reserved_opcode_words] at hall
  omega

/-- Settles O2: each row's mask fixes some leading bits; the commands are counted by encode, the reserved opcodes by the fields. -/
theorem opcodeMapSelects : Obligations.OpcodeMapSelects :=
  ⟨fun w => ⟨word_mask_iff w .nop, word_mask_iff w .clr, addb_mask_iff w, addw_mask_iff w, word_mask_iff w .rdsum,
    word_mask_iff w .rdcsum, verify_mask_iff w, word_mask_iff w .rdst, (decode_eq_reserved_opcode_iff w).symm⟩,
    opcodeMap_disjoint, card_command_words, card_reserved_opcode_words⟩

/-! ### Reserved words and sample words (R35, R37) -/

theorem step_of_reserved {s : State} {w : Command} {rest : List Event} {r : Reserved}
    (h : s.pending = .command w :: rest) (hr : decode w = .reserved r) :
    step s = .next { block := { s.block with err := true }, pending := rest, responses := s.responses ++ [0x0000#16] } := by
  rw [step_of_word h, transact_reserved hr]
  rfl

/-- Settles O3: the outcomes of decode, the fields as numbers, the words that encode leaves over, and the reject action. -/
theorem reservedWordKinds : Obligations.ReservedWordKinds := by
  refine ⟨fun w => ?_, decode_eq_reserved_opcode_iff_toNat, decode_eq_reserved_argument_iff_toNat,
    card_reserved_opcode_words, card_reserved_argument_words, card_reserved_words, fun s w rest r => step_of_reserved⟩
  rcases decode_cases w with ⟨i, hi, -⟩ | ⟨-, hargument, -⟩ | ⟨hopcode, -⟩
  · exact .inl ⟨i, hi⟩
  · exact .inr (.inr hargument)
  · exact .inr (.inl hopcode)

/-- Settles O4: each word is the encoding of its command, or has its opcode and an argument the form does not admit. -/
theorem sampleWordsDecode : Obligations.SampleWordsDecode :=
  ⟨decode_encode .clr, decode_encode (.addb 0x63#8), decode_encode (.addw 0x3039#16), decode_encode .rdsum,
    decode_encode .rdcsum, decode_encode (.verify 0x6703#16), decode_encode .rdst, decode_encode .nop,
    decode_of_not_admits (i := .addb 0) rfl rfl, decode_of_opField_ge (by decide)⟩

end Sys2Proof
end

section
/-! PROOFS for 30_encoding.md R30. A step as a transaction of the block. -/

namespace Sys2Proof.Machine

/-- Settles O16: a transaction on the word is the transaction of its command. -/
theorem stepRunsDecodedCommand : Obligations.StepRunsDecodedCommand := by
  intro s w rest i hpending hdecode
  rw [step_of_word hpending, transact_command hdecode, exec_eq_complete_effect]

/-- Settles O19: the three things that can be pending. -/
theorem stepIsTotal : Obligations.StepIsTotal := by
  intro s
  match hp : s.pending with
  | [] => exact ⟨s, step_of_nothing hp, by simp [hp]⟩
  | .reset :: rest => exact ⟨_, step_of_reset hp, by simp⟩
  | .command w :: rest =>
    refine ⟨_, step_of_word hp, rfl, ?_, by simp, by simp⟩
    rintro w' rest' hw
    cases hw
    exact ⟨(transact w s.block).2, rfl, rfl⟩

end Sys2Proof.Machine
end

section
/-! PROOFS for 30_encoding.md R37 and R38. The pseudo-instructions as byte absorptions, then the assembler's ranges. -/

namespace Sys2Proof.Machine

/-! ### The pseudo-instructions (R38) -/

theorem runCommands_encode_cons (i : Instr) (ws : List Command) (k : Block) :
    (runCommands (encode i :: ws) k).1 = (runCommands ws (effect i k).1).1 := by
  rw [runCommands, transact_command (decode_encode i)]

@[simp] theorem absorbed_nil (bytes : List Byte) : absorbed bytes [] = bytes := rfl

theorem absorbed_encode_cons (bytes : List Byte) (i : Instr) (ws : List Command) :
    absorbed bytes (encode i :: ws) = absorbed (absorbedBy bytes i) ws := by
  rw [absorbed, List.foldl_cons, absorbedByWord, decode_encode, absorbed]

/-- ADDW of two bytes is ADDB of each (R42). -/
theorem effect_addw_wordOf (b0 b1 : Byte) (k : Block) :
    (effect (.addw (wordOf b0 b1)) k).1 = (effect (.addb b1) (effect (.addb b0) k).1).1 := by
  simp [effect, addwEffect, addbEffect, absorbWord]

theorem runCommands_expandAdds (bs : List Byte) (k : Block) :
    (runCommands ((expandAdds bs).map encode) k).1 = (runCommands (bs.map fun b => encode (.addb b)) k).1 := by
  induction bs using stream_induction generalizing k with
  | nil => rfl
  | one b => rfl
  | pair b0 b1 rest ih =>
    simp only [expandAdds, List.map_cons, runCommands_encode_cons, effect_addw_wordOf, ih]

theorem absorbed_expandAdds (bs bytes : List Byte) : absorbed bytes ((expandAdds bs).map encode) = bytes ++ bs := by
  induction bs using stream_induction generalizing bytes with
  | nil => simp [expandAdds]
  | one b => simp [expandAdds, absorbed_encode_cons, absorbedBy]
  | pair b0 b1 rest ih => simp [expandAdds, absorbed_encode_cons, absorbedBy, ih]

theorem absorbed_expandAddhdr (sp dp len : Word) (bytes : List Byte) :
    absorbed bytes ((expandAddhdr sp dp len).map encode) =
      bytes ++ [highByte sp, lowByte sp, highByte dp, lowByte dp, highByte len, lowByte len, 0x00#8, 0x00#8] := by
  have hzero : highByte 0x0000#16 = 0x00#8 ∧ lowByte 0x0000#16 = 0x00#8 := by decide
  simp [expandAddhdr, absorbed_encode_cons, absorbedBy, hzero]

theorem ocAdd_zero (a : Word) : ocAdd a 0x0000#16 = a := by
  apply BitVec.eq_of_toNat_eq
  rw [ocAdd_toNat]
  simp [a.isLt]

/-- At even phase, where `HOLD` is 0x00, two zero bytes change nothing (R45). -/
theorem absorbWord_zero_of_even {k : Block} (hodd : k.odd = false) (hinv : PhaseInv k) : absorbWord 0x0000#16 k = k := by
  obtain ⟨sum, hold, odd, err⟩ := k
  obtain rfl : odd = false := hodd
  obtain rfl : hold = 0x00#8 := hinv rfl
  rw [absorbWord_even _ _ rfl, ocAdd_zero]

/-- Settles O46: the expansions are read two bytes at a time, each pair being two ADDB. -/
theorem pseudoInstructionsAbsorb : Obligations.PseudoInstructionsAbsorb :=
  ⟨runCommands_expandAdds, absorbed_expandAdds, fun _ _ _ => rfl, fun _ => rfl, rfl, fun _ _ _ => rfl,
    absorbed_expandAddhdr, fun _ => absorbWord_zero_of_even⟩

/-! ### The assembler's ranges (R37) -/

theorem assemble_of_wellFormed {l : AsmLine} (h : l.wellFormed = true) : assemble l = .ok (assembledWords l) := if_pos h

theorem assemble_of_not_wellFormed {l : AsmLine} (h : l.wellFormed = false) : assemble l = .error .operandOutOfRange :=
  if_neg (by simp [h])

/-- Settles O47: each range is the bound of the operand's bit vector, so an operand in range is read back unchanged. -/
theorem assemblerChecksRanges : Obligations.AssemblerChecksRanges := by
  refine ⟨fun v hv => ?_, fun v hv => ⟨?_, ?_⟩, fun b => ?_, fun w => ⟨?_, ?_⟩, fun w => ?_, rfl, rfl, rfl, rfl, rfl⟩
  · exact assemble_of_not_wellFormed (decide_eq_false (by omega))
  · exact assemble_of_not_wellFormed (decide_eq_false (by omega))
  · exact assemble_of_not_wellFormed (decide_eq_false (by omega))
  · rw [assemble_of_wellFormed (l := .addb b.toNat) (decide_eq_true b.isLt), assembledWords, BitVec.ofNat_toNat,
      BitVec.setWidth_eq]
  · rw [assemble_of_wellFormed (l := .addw w.toNat) (decide_eq_true w.isLt), assembledWords, BitVec.ofNat_toNat,
      BitVec.setWidth_eq]
  · rw [assemble_of_wellFormed (l := .verify w.toNat) (decide_eq_true w.isLt), assembledWords, BitVec.ofNat_toNat,
      BitVec.setWidth_eq]
  · rw [assemble_of_wellFormed (l := .raw w.toNat) (decide_eq_true w.isLt), assembledWords, BitVec.ofNat_toNat,
      BitVec.setWidth_eq]

end Sys2Proof.Machine
end

section
/-! PROOFS for 40_accumulate.md. `fold16` turns the exact sum of words into `oc_add` of them, so the laws of addition carry over;
from them the obligations about sums, streams and runs; then the commands CLR, ADDB and ADDW. -/

namespace Sys2Proof.Machine

/-! ### `oc_add` as addition (R44, R46) -/

theorem fold16_word_toNat (w : Word) : fold16 w.toNat = w := by
  rw [fold16_of_lt w.isLt, BitVec.ofNat_toNat, BitVec.setWidth_eq]

theorem ocAdd_comm (a b : Word) : ocAdd a b = ocAdd b a := by
  rw [ocAdd_eq_fold16, ocAdd_eq_fold16, Nat.add_comm]

/-- Settles O7: `oc_add` folds the exact sum. -/
theorem ocAddCommutes : Obligations.OcAddCommutes := ocAdd_comm

/-- `fold16` takes addition to `oc_add`. -/
theorem ocAdd_fold16_fold16 (t u : Nat) : ocAdd (fold16 t) (fold16 u) = fold16 (t + u) := by
  apply BitVec.eq_of_toNat_eq
  rw [ocAdd_fold16, fold16_toNat_eq_ocsum, fold16_toNat_eq_ocsum, fold16_toNat_eq_ocsum, Nat.add_comm t, ocsum_ocsum_add,
    Nat.add_comm u]

theorem ocAdd_assoc (a b c : Word) : ocAdd (ocAdd a b) c = ocAdd a (ocAdd b c) :=
  calc ocAdd (ocAdd a b) c = fold16 (a.toNat + b.toNat + c.toNat) := by rw [ocAdd_eq_fold16 a b, ocAdd_fold16]
    _ = fold16 (b.toNat + c.toNat + a.toNat) := by congr 1; omega
    _ = ocAdd (ocAdd b c) a := by rw [ocAdd_eq_fold16 b c, ocAdd_fold16]
    _ = ocAdd a (ocAdd b c) := ocAdd_comm _ _

theorem ocAdd_toNat_eq_ocsum (a b : Word) : (ocAdd a b).toNat = ocsum (a.toNat + b.toNat) := by
  rw [ocAdd_eq_fold16, fold16_toNat_eq_ocsum]

/-! ### The two zeros (R45) -/

theorem ocAdd_allOnes {a : Word} (h : a ≠ 0x0000#16) : ocAdd a 0xFFFF#16 = a := by
  have hpos : a.toNat ≠ 0 := fun h0 => h (BitVec.eq_of_toNat_eq h0)
  apply BitVec.eq_of_toNat_eq
  rw [ocAdd_toNat, BitVec.toNat_ofNat]
  split <;> omega

/-- A value and its complement add up to 0xFFFF without a carry. -/
theorem ocAdd_not (a : Word) : ocAdd a (~~~a) = 0xFFFF#16 := by
  have hsum : a.toNat + (~~~a).toNat = 0xFFFF := by
    have ha := a.isLt
    rw [BitVec.toNat_not]
    omega
  rw [ocAdd_eq_fold16, hsum, fold16_of_lt (by decide)]

/-- Settles O8: adding 0xFFFF to a value carries unless the value is 0x0000, and the carry makes up for the 1 that is missing. -/
theorem ocAddZeros : Obligations.OcAddZeros :=
  ⟨ocAdd_zero, fun _ => ocAdd_allOnes, (ocAdd_comm _ _).trans (ocAdd_zero _), ocAdd_not⟩

/-! ### Sums in any order and any grouping (R46) -/

theorem ocsum_of_ne_zero {t : Nat} (h : t ≠ 0) : ocsum t = (t - 1) % 65535 + 1 := if_neg h

theorem exactSum_perm {ws ws' : List Word} (h : ws.Perm ws') : exactSum ws = exactSum ws' := (h.map _).sum_eq

theorem groupedSum_eq_fold16 (g : Grouping) : groupedSum g = fold16 (exactSum (groupedWords g)) := by
  induction g with
  | word w => rw [groupedSum, groupedWords, exactSum_cons, exactSum_nil, Nat.add_zero, fold16_word_toNat]
  | add l r ihl ihr => rw [groupedSum, groupedWords, ihl, ihr, ocAdd_fold16_fold16, exactSum_append]

/-- Settles O9: `fold16` in closed form, and a grouping by induction on its tree, its words only entering by their exact sum. -/
theorem oneComplementClosedForm : Obligations.OneComplementClosedForm := by
  refine ⟨rfl, fun t ht => ⟨ocsum_of_ne_zero ht, ?_⟩, fold16_toNat_eq_ocsum, ocAdd_toNat_eq_ocsum, fun g ws hperm => ?_,
    ocAdd_assoc⟩
  · rw [ocsum_of_ne_zero ht]
    exact ⟨by omega, by omega, by omega, fun v hlow hhigh hmod => by omega⟩
  · rw [groupedSum_eq_fold16, fold16_toNat_eq_ocsum, exactSum_perm hperm]

/-! ### When `SUM` is 0x0000 and when it is 0xFFFF (R47) -/

@[simp] theorem blockOf_sum (bytes : List Byte) (err : Bool) :
    (blockOf bytes err).sum = fold16 (exactSum (completeWords bytes)) := rfl

theorem fold16_eq_iff (t : Nat) (w : Word) : fold16 t = w ↔ ocsum t = w.toNat := by
  rw [← BitVec.toNat_inj, fold16_toNat_eq_ocsum]

theorem fold16_eq_zero_iff (t : Nat) : fold16 t = 0x0000#16 ↔ t = 0 := by
  rw [fold16_eq_iff, BitVec.toNat_ofNat, ocsum]
  split <;> omega

theorem fold16_eq_allOnes_iff (t : Nat) : fold16 t = 0xFFFF#16 ↔ 0 < t ∧ t % 65535 = 0 := by
  rw [fold16_eq_iff, BitVec.toNat_ofNat, ocsum]
  split <;> omega

theorem exactSum_eq_zero_iff (ws : List Word) : exactSum ws = 0 ↔ ∀ w ∈ ws, w = 0x0000#16 := by
  induction ws with
  | nil => simp
  | cons w ws ih =>
    rw [exactSum_cons, Nat.add_eq_zero_iff, ih, List.forall_mem_cons, ← BitVec.toNat_inj]
    rfl

/-- Settles O10: after any run `SUM` is the folded exact sum, and a fold is 0x0000 for the exact sum 0 alone. -/
theorem sumZeroExactlyWhenAllWordsZero : Obligations.SumZeroExactlyWhenAllWordsZero := by
  intro bytes err ws
  rw [runCommands_blockOf, blockOf_sum]
  have hzero := (fold16_eq_zero_iff _).trans (exactSum_eq_zero_iff (completeWords (absorbed bytes ws)))
  refine ⟨hzero, fun ⟨w, hmem, hw⟩ => ⟨?_, fold16_eq_allOnes_iff _⟩⟩
  exact Nat.pos_of_ne_zero fun h0 => hw (hzero.mp (BitVec.eq_of_toNat_eq h0) w hmem)

/-! ### The order of the words, and bytes added at once (R48) -/

theorem foldPerAdd_fold16 (t : Nat) (ws : List Word) : foldPerAdd (fold16 t) ws = fold16 (t + exactSum ws) := by
  induction ws generalizing t with
  | nil => rfl
  | cons w ws ih =>
    calc foldPerAdd (fold16 t) (w :: ws) = foldPerAdd (ocAdd (fold16 t) w) ws := rfl
      _ = fold16 (t + exactSum (w :: ws)) := by rw [ocAdd_fold16, ih, exactSum_cons, Nat.add_assoc]

theorem foldPerAdd_eq_fold16 (s : Word) (ws : List Word) : foldPerAdd s ws = fold16 (s.toNat + exactSum ws) := by
  rw [← foldPerAdd_fold16, fold16_word_toNat]

theorem foldPerAdd_zero (ws : List Word) : foldPerAdd 0x0000#16 ws = fold16 (exactSum ws) := by
  rw [foldPerAdd_eq_fold16, BitVec.toNat_ofNat, Nat.zero_mod, Nat.zero_add]

/-- Adding the halves of a word one after the other is adding the word. -/
theorem ocAdd_halves (s : Word) (b0 b1 : Byte) :
    ocAdd (ocAdd s (wordOf b0 0x00#8)) (wordOf 0x00#8 b1) = ocAdd s (wordOf b0 b1) := by
  have hsum : (wordOf b0 0x00#8).toNat + (wordOf 0x00#8 b1).toNat = (wordOf b0 b1).toNat := by simp [wordOf_toNat]
  rw [ocAdd_assoc, ocAdd_eq_fold16 (wordOf b0 _), hsum, fold16_word_toNat]

theorem byteAtOnce_eq_foldPerAdd (s : Word) (bytes : List Byte) :
    byteAtOnce s false bytes = foldPerAdd s (paddedWords bytes) := by
  induction bytes using stream_induction generalizing s with
  | nil => rfl
  | one b => rfl
  | pair b0 b1 rest ih =>
    calc byteAtOnce s false (b0 :: b1 :: rest)
        = byteAtOnce (ocAdd (ocAdd s (wordOf b0 0x00#8)) (wordOf 0x00#8 b1)) false rest := rfl
      _ = foldPerAdd (ocAdd s (wordOf b0 b1)) (paddedWords rest) := by rw [ocAdd_halves, ih]

/-- The padded sum of the block is the folded sum of the padded stream (41_readout.md R50). -/
theorem paddedSum_blockOf (bytes : List Byte) (err : Bool) :
    paddedSum (blockOf bytes err) = fold16 (exactSum (paddedWords bytes)) := by
  rcases Nat.mod_two_eq_zero_or_one bytes.length with heven | hodd
  · rw [blockOf_of_even heven, paddedSum_even _ rfl, paddedWords_even bytes heven]
  · rw [blockOf_of_odd hodd, paddedSum_odd _ rfl, ocAdd_fold16]
    obtain ⟨front, b, rfl, heven, hheld⟩ := odd_stream_split bytes hodd
    rw [hheld, completeWords_append_singleton_of_even heven, paddedWords_append_even front _ heven,
      paddedWords_even front heven, exactSum_append]
    rfl

/-- Settles O11: a sum of words depends on their exact sum, to which the halves of a word add what the word adds. -/
theorem byteSplitDesignsAgree : Obligations.ByteSplitDesignsAgree := by
  refine ⟨fun s ws ws' hperm => ?_, ⟨0x01#8, 0x00#8, 0x0000#16, by decide⟩, fun s w => ?_, fun bytes err => ?_⟩
  · rw [foldPerAdd_eq_fold16, foldPerAdd_eq_fold16, exactSum_perm hperm]
  · rw [ocAdd_halves, wordOf_highByte_lowByte]
  · rw [byteAtOnce_eq_foldPerAdd, foldPerAdd_zero, paddedSum_blockOf]

/-! ### A wide accumulator (R49) -/

theorem exactSum_le (ws : List Word) : exactSum ws ≤ ws.length * 65535 := by
  induction ws with
  | nil => exact Nat.le_refl 0
  | cons w ws ih =>
    have hw := w.isLt
    rw [exactSum_cons, List.length_cons]
    omega

theorem paddedWords_length (bytes : List Byte) : (paddedWords bytes).length = (bytes.length + 1) / 2 := by
  induction bytes using stream_induction with
  | nil => rfl
  | one b => simp [paddedWords]
  | pair b0 b1 rest ih =>
    simp only [paddedWords, List.length_cons, ih]
    omega

/-- Settles O12: both designs fold the exact sum; 65515 bytes are at most 32758 words. -/
theorem wideAccumulationAgrees : Obligations.WideAccumulationAgrees := by
  refine ⟨foldPerAdd_zero, fun ws err => ?_, fun bytes hlen => ?_⟩
  · rw [runCommands_blockOf, blockOf_sum, foldPerAdd_zero]
    exact ⟨rfl, rfl⟩
  · have hsum := exactSum_le (paddedWords bytes)
    rw [paddedWords_length] at hsum
    omega

/-! ### CLR, ADDB and ADDW (R40 to R42) -/

/-- An argument outside the form of its opcode makes a reserved word (30_encoding.md R35). -/
theorem decode_append_of_not_admits (i : Instr) {arg : Word} (h : (formOf i).admits arg = false) :
    decode (opcodeOf i ++ arg) = .reserved .argument := by
  have harg : argField (opcodeOf i ++ arg) = arg := BitVec.extractLsb'_append_eq_right
  exact decode_of_not_admits BitVec.extractLsb'_append_eq_left (by rw [harg, h])

/-- Settles O27: CLR's transaction, and the form `Z` admits the argument 0x0000 alone. -/
theorem clrStartsComputation : Obligations.ClrStartsComputation :=
  ⟨rfl, exec_eq_complete_effect .clr, fun _ ha => decode_append_of_not_admits .clr (beq_eq_false_iff_ne.mpr ha), fun _ => rfl⟩

/-- A zero byte held at even phase is what the padding would be (R41). -/
theorem paddedSum_absorbByte_zero_of_even {k : Block} (h : k.odd = false) :
    paddedSum (absorbByte 0x00#8 k) = paddedSum k := by
  have hword : wordOf 0x00#8 padByte = 0x0000#16 := by decide
  rw [absorbByte_even _ _ h, paddedSum_odd _ rfl, hword, ocAdd_zero, paddedSum_even k h]

theorem absorbByte_zero_sum_of_odd {k : Block} (hodd : k.odd = true) (hhold : k.hold = 0x00#8) :
    (absorbByte 0x00#8 k).sum = k.sum := by
  have hword : wordOf 0x00#8 0x00#8 = 0x0000#16 := by decide
  rw [absorbByte_odd _ _ hodd, hhold, hword, ocAdd_zero]

/-- Settles O28: ADDB's transaction at each phase, and the form `B` admits the arguments with a zero high byte alone. -/
theorem addbAbsorbsByte : Obligations.AddbAbsorbsByte := by
  refine ⟨fun b => ?_, fun s b h => ?_, fun s b h => ?_,
    fun _ ha => decode_append_of_not_admits (.addb 0) (beq_eq_false_iff_ne.mpr ha),
    fun _ => paddedSum_absorbByte_zero_of_even, fun _ => absorbByte_zero_sum_of_odd⟩
  · simp [encode_toNat, opcodeOf, argOf, byteArg_toNat]
  · rw [exec_eq_complete_effect, effect, addbEffect, absorbByte_even b s.block h]
    rfl
  · rw [exec_eq_complete_effect, effect, addbEffect, absorbByte_odd b s.block h]
    rfl

theorem absorbWord_allOnes_sum_of_even {k : Block} (h : k.odd = false) :
    (absorbWord 0xFFFF#16 k).sum = if k.sum = 0x0000#16 then 0xFFFF#16 else k.sum := by
  rw [absorbWord_even _ _ h]
  split
  next hzero => rw [hzero, ocAdd_comm, ocAdd_zero]
  next hne => exact ocAdd_allOnes hne

/-- Settles O29: ADDW's transaction is two byte steps, written out at each phase; its form admits every argument. -/
theorem addwAbsorbsTwoBytes : Obligations.AddwAbsorbsTwoBytes := by
  refine ⟨fun w => ?_, fun s w => exec_eq_complete_effect (.addw w) s, fun s w heven _ => ?_,
    fun s w hodd => ?_, fun w => decode_encode (.addw w), fun _ => absorbWord_zero_of_even,
    fun _ => absorbWord_allOnes_sum_of_even⟩
  · simp [encode_toNat, opcodeOf, argOf]
  · rw [exec_eq_complete_effect, effect, addwEffect, absorbWord_even w s.block heven]
    rfl
  · rw [exec_eq_complete_effect, effect, addwEffect, absorbWord_odd w s.block hodd]
    rfl

/-- Settles O30: ADDW of two bytes is ADDB of each, and a word is its two bytes. -/
theorem addwIsTwoAddb : Obligations.AddwIsTwoAddb := by
  intro w k
  have hbytes := effect_addw_wordOf (highByte w) (lowByte w) k
  rw [wordOf_highByte_lowByte] at hbytes
  rw [runCommands_encode_cons, runCommands_encode_cons, runCommands_encode_cons, hbytes]

end Sys2Proof.Machine
end

section
/-! PROOFS for 41_readout.md. The final checksum as one number, and VERIFY as one comparison with it; from these the commands
RDSUM, RDCSUM and VERIFY, the closed form over a stream, and what a flipped bit does to it. -/

namespace Sys2Proof.Machine

/-! ### The padded sum (R50, R52) -/

@[simp] theorem paddedSum_clearStream (k : Block) : paddedSum (clearStream k) = 0x0000#16 := rfl

/-- Settles O38: at odd phase one more zero byte absorbs the word the padding makes. -/
theorem paddedSumIsPaddedStream : Obligations.PaddedSumIsPaddedStream := by
  refine ⟨fun k => ⟨paddedSum_even k, paddedSum_odd k, fun hodd => ?_⟩, paddedSum_blockOf⟩
  rw [paddedSum_odd k hodd, addbEffect, absorbByte_odd _ k hodd, padByte]

/-- Settles O31: RDSUM's transaction, the padded sum at each phase, and the form `Z` admits the argument 0x0000 alone. -/
theorem rdsumReadsPaddedSum : Obligations.RdsumReadsPaddedSum :=
  ⟨rfl, exec_eq_complete_effect .rdsum, fun _ ha => decode_append_of_not_admits .rdsum (beq_eq_false_iff_ne.mpr ha),
    paddedSum_clearStream, rfl, ⟨{ Block.reset with sum := 0xFFFF#16 }, rfl⟩⟩

/-! ### The final checksum (R51, R53) -/

theorem not_eq_zero_iff (a : Word) : ~~~a = 0x0000#16 ↔ a = 0xFFFF#16 := BitVec.not_eq_comm

theorem csumFinal_of_ne {k : Block} (h : paddedSum k ≠ 0xFFFF#16) : csumFinal k = ~~~paddedSum k :=
  if_neg fun h0 => h ((not_eq_zero_iff _).mp h0)

theorem csumFinal_of_allOnes {k : Block} (h : paddedSum k = 0xFFFF#16) : csumFinal k = 0xFFFF#16 :=
  if_pos ((not_eq_zero_iff _).mpr h)

/-- Both cases of R51 as one number: 0xFFFF is 0 modulo 65535, and any other padded sum is itself. -/
theorem csumFinal_toNat (k : Block) : (csumFinal k).toNat = 65535 - (paddedSum k).toNat % 65535 := by
  by_cases h : paddedSum k = 0xFFFF#16
  · rw [csumFinal_of_allOnes h, h]
    rfl
  · have hlt := (paddedSum k).isLt
    have hne : (paddedSum k).toNat ≠ 65535 := BitVec.toNat_ne_iff_ne.mpr h
    rw [csumFinal_of_ne h, BitVec.toNat_not]
    omega

theorem csumFinal_ne_zero (k : Block) : csumFinal k ≠ 0x0000#16 := by
  rw [ne_eq, ← BitVec.toNat_inj, csumFinal_toNat, BitVec.toNat_ofNat]
  omega

theorem word_mod_eq_zero_iff (a : Word) : a.toNat % 65535 = 0 ↔ a = 0x0000#16 ∨ a = 0xFFFF#16 := by
  have ha := a.isLt
  rw [← BitVec.toNat_inj, ← BitVec.toNat_inj, BitVec.toNat_ofNat, BitVec.toNat_ofNat]
  omega

theorem csumFinal_eq_allOnes_iff_mod (k : Block) : csumFinal k = 0xFFFF#16 ↔ (paddedSum k).toNat % 65535 = 0 := by
  rw [← BitVec.toNat_inj, csumFinal_toNat, BitVec.toNat_ofNat]
  omega

theorem csumFinal_eq_allOnes_iff (k : Block) :
    csumFinal k = 0xFFFF#16 ↔ paddedSum k = 0x0000#16 ∨ paddedSum k = 0xFFFF#16 :=
  (csumFinal_eq_allOnes_iff_mod k).trans (word_mod_eq_zero_iff _)

/-- Settles O39: the complement is 0xFFFF minus the padded sum, and it is 0x0000 for 0xFFFF alone. -/
theorem finalChecksumReplacement : Obligations.FinalChecksumReplacement := by
  refine fun k => ⟨fun h => ?_, csumFinal_of_allOnes, not_eq_zero_iff _⟩
  rw [csumFinal_of_ne h, BitVec.toNat_not]

/-- Settles O32: RDCSUM's transaction in the two cases of the replacement; the form `Z` admits the argument 0x0000 alone. -/
theorem rdcsumReadsFinalChecksum : Obligations.RdcsumReadsFinalChecksum := by
  have hzero {k : Block} (h : paddedSum k = 0x0000#16) : csumFinal k = 0xFFFF#16 := (csumFinal_eq_allOnes_iff k).mpr (.inl h)
  refine ⟨rfl, fun s => ?_, fun _ ha => decode_append_of_not_admits .rdcsum (beq_eq_false_iff_ne.mpr ha),
    fun k => ⟨csumFinal_ne_zero k, csumFinal_eq_allOnes_iff k, hzero (paddedSum_clearStream k)⟩, hzero rfl⟩
  rw [exec_eq_complete_effect, effect, rdcsumEffect, complete]
  split
  next h => rw [csumFinal_of_allOnes h]
  next h => rw [csumFinal_of_ne h]

/-! ### VERIFY (R54, R59) -/

theorem verify_response (c : Word) (k : Block) :
    (effect (.verify c) k).2 =
      if c = 0x0000#16 then 0x0001#16 else if c = csumFinal k then 0x0001#16 else 0x0000#16 := by
  rw [effect, verifyEffect, verdict]
  split
  · rfl
  · simp only [verdictWord, beq_iff_eq]

theorem verify_valid_iff (c : Word) (k : Block) :
    (effect (.verify c) k).2 = 0x0001#16 ↔ c = 0x0000#16 ∨ c = csumFinal k := by
  rw [verify_response]
  split <;> simp [*]

theorem verify_valid_iff_of_ne_zero {c : Word} (hc : c ≠ 0x0000#16) (k : Block) :
    (effect (.verify c) k).2 = 0x0001#16 ↔ c = csumFinal k :=
  (verify_valid_iff c k).trans (or_iff_right hc)

theorem verify_csumFinal_of_ne {k k' : Block} (h : csumFinal k ≠ csumFinal k') :
    (effect (.verify (csumFinal k)) k').2 = 0x0000#16 := by
  rw [verify_response, if_neg (csumFinal_ne_zero k), if_neg h]

theorem exec_verify (c : Word) (s : State) :
    exec (.verify c) s =
      .next { block := s.block, pending := s.pending, responses := s.responses ++ [(effect (.verify c) s.block).2] } :=
  exec_eq_complete_effect (.verify c) s

/-- Settles O33: VERIFY answers by one comparison with the final checksum, and its form admits every argument. -/
theorem verifyComparesStored : Obligations.VerifyComparesStored := by
  refine ⟨fun c => ?_, fun s c => ?_, fun c => decode_encode (.verify c), fun k => ?_⟩
  · simp [encode_toNat, opcodeOf, argOf]
  · rw [exec_verify, verify_response]
  · rw [verify_valid_iff_of_ne_zero (by decide), eq_comm, csumFinal_eq_allOnes_iff]

/-- Settles O43: the final checksum is never the reserved 0x0000 and equals itself. -/
theorem verifyOwnChecksum : Obligations.VerifyOwnChecksum := by
  refine fun s => ⟨csumFinal_ne_zero _, ?_⟩
  rw [exec_verify, (verify_valid_iff _ _).mpr (.inr rfl)]

/-! ### Reads have no side effect (R55) -/

theorem runCommands_reads {reads : List Instr} (h : ∀ i ∈ reads, isRead i = true) (k : Block) :
    runCommands (reads.map encode) k = (k, reads.map fun i => (effect i k).2) := by
  induction reads with
  | nil => rfl
  | cons i reads ih =>
    obtain ⟨hi, hreads⟩ := List.forall_mem_cons.mp h
    rw [List.map_cons, runCommands, transact_command (decode_encode i), effect_block_of_isRead hi, ih hreads, List.map_cons]

/-- Settles O37: a run of reads gives back the block it was given, so the later commands meet the same block. -/
theorem readsArePure : Obligations.ReadsArePure := by
  intro before reads later k hreads
  simp only [runCommands_append, runCommands_reads hreads, and_self]

/-! ### The final checksum of a stream (R56) -/

theorem ocsum_mod (t : Nat) : ocsum t % 65535 = t % 65535 := by
  unfold ocsum
  split <;> omega

theorem paddedSum_blockOf_mod (bytes : List Byte) (err : Bool) :
    (paddedSum (blockOf bytes err)).toNat % 65535 = exactSum (paddedWords bytes) % 65535 := by
  rw [paddedSum_blockOf, fold16_toNat_eq_ocsum, ocsum_mod]

theorem csumFinal_blockOf_toNat (bytes : List Byte) (err : Bool) :
    (csumFinal (blockOf bytes err)).toNat = 65535 - exactSum (paddedWords bytes) % 65535 := by
  rw [csumFinal_toNat, paddedSum_blockOf_mod]

theorem csumFinal_blockOf_eq_iff (bytes bytes' : List Byte) (err err' : Bool) :
    csumFinal (blockOf bytes err) = csumFinal (blockOf bytes' err') ↔
      exactSum (paddedWords bytes) % 65535 = exactSum (paddedWords bytes') % 65535 := by
  rw [← BitVec.toNat_inj, csumFinal_blockOf_toNat, csumFinal_blockOf_toNat]
  omega

theorem paddedWords_fieldBytes_append (w : Word) (bytes : List Byte) :
    paddedWords (fieldBytes w ++ bytes) = w :: paddedWords bytes :=
  congrArg (· :: paddedWords bytes) (wordOf_highByte_lowByte w)

/-- The two bytes of a checksum's complement are a stream with that checksum. -/
theorem csumFinal_blockOf_fieldBytes_not {c : Word} (hc : c ≠ 0x0000#16) (err : Bool) :
    csumFinal (blockOf (fieldBytes (~~~c)) err) = c := by
  have hlt := c.isLt
  have hpos : c.toNat ≠ 0 := BitVec.toNat_ne_iff_ne.mpr hc
  have hsum : exactSum (paddedWords (fieldBytes (~~~c))) = 65535 - c.toNat := by
    rw [← List.append_nil (fieldBytes _), paddedWords_fieldBytes_append, paddedWords, exactSum_cons, exactSum_nil,
      BitVec.toNat_not, Nat.add_zero]
  apply BitVec.eq_of_toNat_eq
  rw [csumFinal_blockOf_toNat, hsum]
  omega

/-- Settles O40: folding keeps a sum modulo 65535, and the final checksum depends on that residue alone. -/
theorem finalChecksumClosedForm : Obligations.FinalChecksumClosedForm := by
  refine ⟨fun bytes err => ⟨csumFinal_blockOf_toNat bytes err, csumFinal_ne_zero _, ?_, ?_⟩,
    fun c hc err => ⟨_, csumFinal_blockOf_fieldBytes_not hc err⟩, csumFinal_blockOf_eq_iff⟩
  · rw [csumFinal_eq_allOnes_iff_mod, paddedSum_blockOf_mod]
  · rw [← paddedSum_blockOf_mod bytes err, word_mod_eq_zero_iff]

/-! ### What VERIFY is equivalent to (R57) -/

theorem eq_csumFinal_iff (c : Word) (k : Block) :
    c = csumFinal k ↔ (c = ~~~paddedSum k ∧ paddedSum k ≠ 0xFFFF#16) ∨ (c = 0xFFFF#16 ∧ paddedSum k = 0xFFFF#16) := by
  by_cases h : paddedSum k = 0xFFFF#16
  · simp [csumFinal_of_allOnes h, h]
  · simp [csumFinal_of_ne h, h]

/-- Apart from 0x0000, the final checksum is the one word that makes the sum a positive multiple of 65535. -/
theorem ocAdd_paddedSum_eq_allOnes_iff {c : Word} (hc : c ≠ 0x0000#16) (k : Block) :
    ocAdd (paddedSum k) c = 0xFFFF#16 ↔ c = csumFinal k := by
  have hlt := c.isLt
  have hpos : c.toNat ≠ 0 := BitVec.toNat_ne_iff_ne.mpr hc
  rw [ocAdd_eq_fold16, fold16_eq_allOnes_iff, ← BitVec.toNat_inj, csumFinal_toNat]
  omega

theorem exactSum_wireBytes (s : Segment) (c : Word) :
    exactSum (paddedWords (wireBytes s c)) = exactSum (paddedWords (checksumBytes s)) + c.toNat := by
  simp only [checksumBytes, wireBytes, List.append_assoc, paddedWords_fieldBytes_append, exactSum_cons, BitVec.toNat_ofNat]
  omega

/-- Settles O41: the cases of the replacement, the sum modulo 65535, and the checksum field as one more word of the exact sum. -/
theorem verifyEquivalents : Obligations.VerifyEquivalents := by
  refine ⟨fun k c => ⟨?_, fun hc => ?_, ?_, ?_⟩, fun s c err => ?_⟩
  · rw [verify_valid_iff, eq_csumFinal_iff]
  · rw [verify_valid_iff_of_ne_zero hc, ocAdd_paddedSum_eq_allOnes_iff hc]
  · rw [ocAdd_zero]
  · exact (verify_valid_iff _ k).mpr (.inl rfl)
  · rw [paddedSum_blockOf, paddedSum_blockOf, ocAdd_fold16, exactSum_wireBytes]

/-! ### One flipped bit (R58) -/

/-- Two numbers that differ by one of the lowest `width` powers of two, in either direction. -/
def DiffersByBit (width t u : Nat) : Prop := ∃ n, n < width ∧ (u = t + 2 ^ n ∨ t = u + 2 ^ n)

theorem DiffersByBit.add_right {width t u : Nat} (h : DiffersByBit width t u) (m : Nat) :
    DiffersByBit width (t + m) (u + m) := by
  obtain ⟨n, hn, hdiff⟩ := h
  exact ⟨n, hn, by omega⟩

theorem DiffersByBit.add_left {width t u : Nat} (h : DiffersByBit width t u) (m : Nat) :
    DiffersByBit width (m + t) (m + u) := by
  rw [Nat.add_comm m, Nat.add_comm m]
  exact h.add_right m

/-- The powers of two below 2^16 lie strictly between 0 and 65535. -/
theorem DiffersByBit.mod_ne {t u : Nat} (h : DiffersByBit 16 t u) : u % 65535 ≠ t % 65535 := by
  obtain ⟨n, hn, hdiff⟩ := h
  have hpos : 1 ≤ 2 ^ n := Nat.one_le_two_pow
  have hle : 2 ^ n ≤ 2 ^ 15 := Nat.pow_le_pow_right (by decide) (by omega)
  omega

theorem toNat_xor_twoPow_of_clear {width j : Nat} (hj : j < width) {b : BitVec width} (h : b.getLsbD j = false) :
    (b ^^^ BitVec.twoPow width j).toNat = b.toNat + 2 ^ j := by
  have hand : b &&& BitVec.twoPow width j = 0#width := by simp [BitVec.and_twoPow, h]
  have hadd : b ^^^ BitVec.twoPow width j = b + BitVec.twoPow width j := by
    rw [BitVec.add_eq_or_of_and_eq_zero _ _ hand]
    ext i hi
    obtain rfl | hij := eq_or_ne i j
    · simpa [BitVec.getLsbD_eq_getElem hi] using h
    · simp [hij]
  rw [hadd, BitVec.toNat_add_of_and_eq_zero hand, BitVec.toNat_twoPow_of_lt hj]

/-- Flipping a clear bit adds its power of two; a set bit is one that was flipped from clear. -/
theorem differsByBit_xor_twoPow {width j : Nat} (hj : j < width) (b : BitVec width) :
    DiffersByBit width b.toNat (b ^^^ BitVec.twoPow width j).toNat := by
  cases h : b.getLsbD j with
  | false => exact ⟨j, hj, .inl (toNat_xor_twoPow_of_clear hj h)⟩
  | true =>
    have hclear : (b ^^^ BitVec.twoPow width j).getLsbD j = false := by simp [h, hj]
    have hback := toNat_xor_twoPow_of_clear hj hclear
    rw [BitVec.xor_assoc, BitVec.xor_self, BitVec.xor_zero] at hback
    exact ⟨j, hj, .inr hback⟩

theorem differsByBit_wordOf_high {b b' : Byte} (h : DiffersByBit 8 b.toNat b'.toNat) (low : Byte) :
    DiffersByBit 16 (wordOf b low).toNat (wordOf b' low).toNat := by
  obtain ⟨n, hn, hdiff⟩ := h
  have hpow : 2 ^ (n + 8) = 2 ^ n * 256 := Nat.pow_add 2 n 8
  refine ⟨n + 8, by omega, ?_⟩
  rw [wordOf_toNat, wordOf_toNat]
  omega

theorem differsByBit_wordOf_low {b b' : Byte} (h : DiffersByBit 8 b.toNat b'.toNat) (high : Byte) :
    DiffersByBit 16 (wordOf high b).toNat (wordOf high b').toNat := by
  obtain ⟨n, hn, hdiff⟩ := h
  refine ⟨n, by omega, ?_⟩
  rw [wordOf_toNat, wordOf_toNat]
  omega

theorem flipBit_length (bytes : List Byte) (i j : Nat) : (flipBit bytes i j).length = bytes.length :=
  List.length_modify _ _ _

/-- The flipped byte is the high or the low half of one word of the stream; the other words are the same. -/
theorem differsByBit_flipBit (bytes : List Byte) {i j : Nat} (hi : i < bytes.length) (hj : j < 8) :
    DiffersByBit 16 (exactSum (paddedWords bytes)) (exactSum (paddedWords (flipBit bytes i j))) := by
  have hbyte (b : Byte) : DiffersByBit 8 b.toNat (b ^^^ 1#8 <<< j).toNat := by
    rw [← BitVec.twoPow_eq]
    exact differsByBit_xor_twoPow hj b
  induction bytes using stream_induction generalizing i with
  | nil => cases hi
  | one b =>
    obtain rfl : i = 0 := Nat.lt_one_iff.mp hi
    exact (differsByBit_wordOf_high (hbyte b) padByte).add_right 0
  | pair b0 b1 rest ih =>
    match i with
    | 0 => exact (differsByBit_wordOf_high (hbyte b0) b1).add_right (exactSum (paddedWords rest))
    | 1 => exact (differsByBit_wordOf_low (hbyte b1) b0).add_right (exactSum (paddedWords rest))
    | i + 2 => exact (ih (by simpa using hi)).add_left (wordOf b0 b1).toNat

/-- Settles O42: a power of two below 2^16 is no multiple of 65535, so the residues and with them the final checksums differ. -/
theorem singleBitSensitivity : Obligations.SingleBitSensitivity := by
  intro bytes err i j hi hj
  have hdiff := differsByBit_flipBit bytes hi hj
  have hne : csumFinal (blockOf (flipBit bytes i j) err) ≠ csumFinal (blockOf bytes err) := fun heq =>
    hdiff.mod_ne ((csumFinal_blockOf_eq_iff _ _ err err).mp heq)
  exact ⟨flipBit_length bytes i j, hdiff, hdiff.mod_ne, hne, verify_csumFinal_of_ne hne.symm, verify_csumFinal_of_ne hne⟩

end Sys2Proof.Machine
end

section
/-! PROOFS for 42_system.md. The fields of the status word, read off its number; then NOP and RDST. -/

namespace Sys2Proof.Machine

/-! ### The status word (10_state.md R18) -/

theorem statusWord_hold (k : Block) : (statusWord k).extractLsb' 8 8 = k.hold := by
  have hhold := k.hold.isLt
  have herr := k.err.toNat_lt
  have hodd := k.odd.toNat_lt
  apply BitVec.eq_of_toNat_eq
  rw [BitVec.extractLsb'_toNat, Nat.shiftRight_eq_div_pow, statusWord_toNat]
  omega

theorem statusWord_zeros (k : Block) : (statusWord k).extractLsb' 2 6 = 0#6 := by
  have herr := k.err.toNat_lt
  have hodd := k.odd.toNat_lt
  apply BitVec.eq_of_toNat_eq
  rw [BitVec.extractLsb'_toNat, Nat.shiftRight_eq_div_pow, statusWord_toNat, BitVec.toNat_ofNat]
  omega

/-- At even phase `HOLD` is 0x00 (R12), so only `ERR` is left to read. -/
theorem statusWord_of_even {k : Block} (heven : k.odd = false) (hinv : PhaseInv k) :
    statusWord k = if k.err then 0x0002#16 else 0x0000#16 := by
  rw [statusWord, hinv heven, heven]
  cases k.err <;> rfl

/-! ### NOP and RDST (R60, R61) -/

/-- Settles O26: NOP's transaction, and the form `Z` admits the argument 0x0000 alone. -/
theorem nopDoesNothing : Obligations.NopDoesNothing :=
  ⟨rfl, exec_eq_complete_effect .nop, fun _ ha => decode_append_of_not_admits .nop (beq_eq_false_iff_ne.mpr ha)⟩

/-- Settles O34: RDST's transaction answers the status word; the form `Z` admits the argument 0x0000 alone. -/
theorem rdstReadsStatus : Obligations.RdstReadsStatus := by
  refine ⟨rfl, fun s => ⟨statusWord s.block, exec_eq_complete_effect .rdst s, statusWord_toNat s.block,
      statusWord_hold s.block, statusWord_zeros s.block, statusWord_err s.block, statusWord_odd s.block,
      fun heven hinv => ?_⟩,
    fun _ ha => decode_append_of_not_admits .rdst (beq_eq_false_iff_ne.mpr ha)⟩
  rw [statusWord_of_even heven hinv]
  cases s.block.err
  · exact .inl rfl
  · exact .inr rfl

end Sys2Proof.Machine
end

section
/-! PROOFS for 43_segment_host.md. What each host procedure answers, said once: Construct by its inputs, a fed block as the block
of the checksummed bytes, and Deserialize by its length field and the cap; then the obligations about the procedures. -/

namespace Sys2Proof.Machine

/-! ### Construct (R71) -/

theorem not_withinCap_iff (payload : List Byte) : ¬ WithinCap payload ↔ 65507 < payload.length := Nat.not_le

theorem construct_of_ok (cfg : FramerConfig) {sp dp : Int} {payload : List Byte} (hsp : PortInRange sp) (hdp : PortInRange dp)
    (hcap : WithinCap payload) : construct cfg sp dp payload = .ok (newSegment sp dp payload) := by
  rw [construct, if_pos ⟨hsp, hdp⟩, if_pos hcap]

theorem construct_of_bad_port (cfg : FramerConfig) {sp dp : Int} {payload : List Byte}
    (hports : ¬ (PortInRange sp ∧ PortInRange dp)) (hcap : WithinCap payload) :
    construct cfg sp dp payload = .error .invalidPort := by
  rw [construct, if_neg hports, if_pos hcap]

theorem construct_of_oversize (cfg : FramerConfig) {sp dp : Int} {payload : List Byte} (hsp : PortInRange sp)
    (hdp : PortInRange dp) (hcap : ¬ WithinCap payload) : construct cfg sp dp payload = .error .payloadTooLarge := by
  rw [construct, if_pos ⟨hsp, hdp⟩, if_neg hcap]

theorem construct_of_both_errors (cfg : FramerConfig) {sp dp : Int} {payload : List Byte}
    (hports : ¬ (PortInRange sp ∧ PortInRange dp)) (hcap : ¬ WithinCap payload) :
    construct cfg sp dp payload = .error (if cfg.portErrorFirst then .invalidPort else .payloadTooLarge) := by
  rw [construct, if_neg hports, if_neg hcap]

/-- What Construct can return. -/
theorem construct_eq_ok {cfg : FramerConfig} {sp dp : Int} {payload : List Byte} {s : Segment}
    (h : construct cfg sp dp payload = .ok s) : WithinCap payload ∧ s = newSegment sp dp payload := by
  unfold construct at h
  split at h
  · split at h
    · cases h
      exact ⟨‹_›, rfl⟩
    · cases h
  · split at h <;> cases h

theorem ofInt_toNat_of_portInRange {p : Int} (h : PortInRange p) : ((BitVec.ofInt 16 p).toNat : Int) = p := by
  obtain ⟨hlow, hhigh⟩ := h
  rw [BitVec.toNat_ofInt]
  omega

theorem portInRange_toNat (p : Word) : PortInRange (p.toNat : Int) := by
  have hp := p.isLt
  constructor <;> omega

/-- The cap keeps the length, header included, within its 16-bit field (R88). -/
theorem newSegment_length_toNat (sp dp : Int) {payload : List Byte} (hcap : WithinCap payload) :
    (newSegment sp dp payload).length.toNat = 8 + payload.length := by
  have hcap' : payload.length ≤ 65507 := hcap
  simp only [newSegment, headerBytes, BitVec.toNat_ofNat]
  omega

/-- Settles O48: the four cases of Construct; a port in range and a length within the cap are what 16 bits hold. -/
theorem constructChecksInputs : Obligations.ConstructChecksInputs := by
  intro cfg sp dp payload
  have hports : (0 ≤ sp ∧ sp ≤ 65535 ∧ 0 ≤ dp ∧ dp ≤ 65535) ↔ PortInRange sp ∧ PortInRange dp := and_assoc.symm
  rw [hports, ← not_withinCap_iff]
  refine ⟨fun hsp0 hsp hdp0 hdp hcap => ?_, fun hbad hcap => construct_of_bad_port cfg hbad hcap,
    fun hsp0 hsp hdp0 hdp hcap => construct_of_oversize cfg ⟨hsp0, hsp⟩ ⟨hdp0, hdp⟩ hcap, fun hbad hcap => ?_⟩
  · exact ⟨newSegment sp dp payload, construct_of_ok cfg ⟨hsp0, hsp⟩ ⟨hdp0, hdp⟩ hcap,
      ofInt_toNat_of_portInRange ⟨hsp0, hsp⟩, ofInt_toNat_of_portInRange ⟨hdp0, hdp⟩, rfl,
      newSegment_length_toNat sp dp hcap, rfl, rfl⟩
  · rw [construct_of_both_errors cfg hbad hcap]
    cases cfg.portErrorFirst
    · exact .inr rfl
    · exact .inl rfl

/-! ### The checksummed bytes (R72, R86) -/

theorem checksumBytes_length (s : Segment) : (checksumBytes s).length = 8 + s.payload.length := wireBytes_length s _

theorem length_wireBytes_eq_length_field {s : Segment} (h : s.length.toNat = 8 + s.payload.length) (c : Word) :
    (wireBytes s c).length = s.length.toNat := by
  rw [wireBytes_length, h]

/-- Settles O49: the zero checksum field is two zero bytes, and no other field is read from the stored checksum. -/
theorem checksummedBytes : Obligations.ChecksummedBytes :=
  fun _ => ⟨rfl, fun h => length_wireBytes_eq_length_field h _, fun _ => rfl⟩

theorem paddedWords_wireBytes (s : Segment) (c : Word) :
    paddedWords (wireBytes s c) = s.sourcePort :: s.destinationPort :: s.length :: c :: paddedWords s.payload := by
  simp only [wireBytes, List.append_assoc, paddedWords_fieldBytes_append]

/-! ### A block fed with a segment (R73, R76) -/

@[simp] theorem isReserved_encode (i : Instr) : isReserved (encode i) = false := by
  rw [isReserved, decode_encode]

theorem absorbed_append (bytes : List Byte) (ws ws' : List Command) :
    absorbed bytes (ws ++ ws') = absorbed (absorbed bytes ws) ws' := List.foldl_append

theorem runCommands_map_encode_blockOf (is : List Instr) (bytes : List Byte) (err : Bool) :
    (runCommands (is.map encode) (blockOf bytes err)).1 = blockOf (absorbed bytes (is.map encode)) err := by
  have hnone : (is.map encode).any isReserved = false := by simp
  rw [runCommands_blockOf, hnone, Bool.or_false]

theorem absorbed_addhdr_adds (s : Segment) :
    absorbed [] ((expandAddhdr s.sourcePort s.destinationPort s.length ++ expandAdds s.payload).map encode) =
      checksumBytes s := by
  rw [List.map_append, absorbed_append, absorbed_expandAdds, absorbed_expandAddhdr]
  rfl

/-- CLR forgets what the block held, and the rest of the feed absorbs the checksummed bytes. -/
theorem runCommands_feedCommands (s : Segment) (k : Block) :
    (runCommands ((feedCommands s).map encode) k).1 = blockOf (checksumBytes s) k.err := by
  have hclr : (effect .clr k).1 = blockOf [] k.err := clearStream_eq_blockOf_nil k
  rw [feedCommands, List.map_cons, runCommands_encode_cons, hclr, runCommands_map_encode_blockOf, absorbed_addhdr_adds]

theorem transact_encode (i : Instr) (k : Block) : transact (encode i) k = effect i k := transact_command (decode_encode i) k

/-- A command after the feed is answered from the block of the checksummed bytes. -/
theorem issue_feed_append (s : Segment) (i : Instr) (k : Block) :
    issue (feedCommands s ++ [i]) k =
      ((effect i (blockOf (checksumBytes s) k.err)).2, (effect i (blockOf (checksumBytes s) k.err)).1) := by
  obtain ⟨hblock, hresponse⟩ := runCommands_last ((feedCommands s).map encode) (encode i) k
  rw [issue, List.map_append, List.map_singleton, hblock, hresponse, runCommands_feedCommands, transact_encode]

/-- The feed and one more command, written out, end with the response of that command. -/
theorem getLast?_feed_responses (s : Segment) (i : Instr) (k : Block) :
    (runCommands (List.map encode (Instr.clr :: .addw s.sourcePort :: .addw s.destinationPort :: .addw s.length ::
      .addw 0x0000#16 :: (expandAdds s.payload ++ [i]))) k).2.getLast? =
        some (effect i (blockOf (checksumBytes s) k.err)).2 := by
  change (runCommands ((feedCommands s ++ [i]).map encode) k).2.getLast? = _
  rw [List.map_append, List.map_singleton, runCommands_append, runCommands_feedCommands, runCommands, transact_encode,
    runCommands_nil, List.getLast?_concat]

/-! ### ComputeChecksum (R73, R86) -/

theorem computeChecksum_eq (s : Segment) (k : Block) :
    computeChecksum s k = (csumFinal (blockOf (checksumBytes s) k.err), blockOf (checksumBytes s) k.err) :=
  issue_feed_append s .rdcsum k

theorem csumFinal_blockOf_err (bytes : List Byte) (err err' : Bool) :
    csumFinal (blockOf bytes err) = csumFinal (blockOf bytes err') := rfl

/-- The computed checksum does not depend on what the block held. -/
theorem computeChecksum_any_block (s : Segment) (k k' : Block) : (computeChecksum s k).1 = (computeChecksum s k').1 := by
  rw [computeChecksum_eq, computeChecksum_eq]
  exact csumFinal_blockOf_err _ _ _

theorem computeChecksum_ne_zero (s : Segment) (k : Block) : (computeChecksum s k).1 ≠ 0x0000#16 := by
  rw [computeChecksum_eq]
  exact csumFinal_ne_zero _

/-- Settles O50: the feed leaves the block of the checksummed bytes, and so does any run that absorbs them, but for `ERR`. -/
theorem computeChecksumIsFinalChecksum : Obligations.ComputeChecksumIsFinalChecksum := by
  intro s k
  rw [computeChecksum_eq, getLast?_feed_responses]
  refine ⟨rfl, rfl, csumFinal_blockOf_toNat _ _, csumFinal_ne_zero _, rfl, fun bytes err ws habs => ?_⟩
  rw [runCommands_blockOf, habs]
  exact csumFinal_blockOf_err _ _ _

/-- Settles O60: the length is a word of the sum and not 0x0000, so the sum is not, and only the replacement gives 0xFFFF. -/
theorem segmentSumIsNeverZero : Obligations.SegmentSumIsNeverZero := by
  intro s k hlen
  have hmem : s.length ∈ paddedWords (checksumBytes s) := by
    rw [checksumBytes, paddedWords_wireBytes]
    simp
  have hne : paddedSum (blockOf (checksumBytes s) k.err) ≠ 0x0000#16 := by
    rw [paddedSum_blockOf, ne_eq, fold16_eq_zero_iff, exactSum_eq_zero_iff]
    intro hzero
    rw [hzero _ hmem, BitVec.toNat_ofNat] at hlen
    omega
  rw [computeChecksum_eq]
  exact ⟨hmem, by omega, Nat.pos_of_ne_zero (BitVec.toNat_ne_iff_ne.mpr hne),
    (csumFinal_eq_allOnes_iff _).trans (or_iff_right hne)⟩

/-! ### Serialize (R74) -/

theorem serialize_eq (s : Segment) (k : Block) :
    serialize s k = ((wireBytes s (computeChecksum s k).1, (computeChecksum s k).1), (computeChecksum s k).2) := rfl

/-- Settles O51: the two wire formats differ in bytes 6 and 7 alone. -/
theorem serializeEmitsWireFormat : Obligations.SerializeEmitsWireFormat :=
  fun _ _ => ⟨rfl, rfl, fun h => length_wireBytes_eq_length_field h _⟩

/-! ### IsChecksumValid (R76) -/

theorem checkStored_eq (s : Segment) (c : Word) (k : Block) :
    checkStored s c k = (decide (c = 0x0000#16 ∨ c = (computeChecksum s k).1), blockOf (checksumBytes s) k.err) := by
  have hverdict := verify_valid_iff c (blockOf (checksumBytes s) k.err)
  rw [checkStored, issue_feed_append, computeChecksum_eq, Bool.beq_eq_decide_eq, decide_eq_decide.mpr hverdict]
  rfl

theorem checkStored_valid_iff (s : Segment) (c : Word) (k : Block) :
    (checkStored s c k).1 = true ↔ c = 0x0000#16 ∨ c = (computeChecksum s k).1 := by
  rw [checkStored_eq]
  exact decide_eq_true_iff

theorem checkStored_own_checksum (s : Segment) (k k' : Block) : (checkStored s (computeChecksum s k).1 k').1 = true :=
  (checkStored_valid_iff s _ k').mpr (.inr (computeChecksum_any_block s k k'))

theorem checkStored_zero (s : Segment) (k : Block) : (checkStored s 0x0000#16 k).1 = true :=
  (checkStored_valid_iff s _ k).mpr (.inl rfl)

/-- The feed does not read `is_valid`. -/
theorem checkStored_withValidity (s : Segment) (v : Bool) (c : Word) (k : Block) :
    checkStored (withValidity s v) c k = checkStored s c k := rfl

theorem isChecksumValid_of_some {s : Segment} {c : Word} (h : s.checksum = some c) (k : Block) :
    isChecksumValid s k = .ok (checkStored s c k) := by
  simp only [isChecksumValid, h]

theorem isChecksumValid_of_none {s : Segment} (h : s.checksum = none) (k : Block) :
    isChecksumValid s k = .error .checksumUnset := by
  simp only [isChecksumValid, h]

/-- Settles O53: the sequence ends with VERIFY on the block of the checksummed bytes. -/
theorem isChecksumValidRule : Obligations.IsChecksumValidRule := by
  refine fun s k => ⟨fun c hc => ⟨⟨_, (isChecksumValid_of_some hc k).trans (congrArg _ (checkStored_eq s c k))⟩, ?_⟩,
    fun hnone => isChecksumValid_of_none hnone k⟩
  rw [getLast?_feed_responses, verify_response, computeChecksum_eq, ite_or]

/-! ### Deserialize (R75) -/

theorem deserialize_of_short (cfg : FramerConfig) {bytes : List Byte} (h : bytes.length < 8) (k : Block) :
    deserialize cfg bytes k = .error .truncatedHeader := by
  unfold deserialize
  split
  · simp only [List.length_cons] at h
    omega
  · rfl

section
variable {cfg : FramerConfig} {sp dp len c : Word} {payload : List Byte} {k : Block}

theorem deserializeFields_of_ok (hlen : len.toNat = 8 + payload.length)
    (hcap : ¬ (cfg.decodePayloadCap = true ∧ 65507 < payload.length)) :
    deserializeFields cfg sp dp len c payload k =
      .ok (withValidity (decodedSegment sp dp len c payload) (checkStored (decodedSegment sp dp len c payload) c k).1,
        (checkStored (decodedSegment sp dp len c payload) c k).2) := by
  rw [← not_withinCap_iff] at hcap
  rw [deserializeFields, headerBytes, if_neg hcap, if_pos hlen]

theorem deserializeFields_of_length_ne (hlen : len.toNat ≠ 8 + payload.length)
    (hcap : ¬ (cfg.decodePayloadCap = true ∧ 65507 < payload.length)) :
    deserializeFields cfg sp dp len c payload k = .error .lengthMismatch := by
  rw [← not_withinCap_iff] at hcap
  rw [deserializeFields, headerBytes, if_neg hcap, if_neg hlen]

theorem deserializeFields_of_oversize (hlen : len.toNat = 8 + payload.length) (hcap : cfg.decodePayloadCap = true)
    (hsize : 65507 < payload.length) : deserializeFields cfg sp dp len c payload k = .error .payloadTooLarge := by
  rw [← not_withinCap_iff] at hsize
  rw [deserializeFields, headerBytes, if_pos ⟨hcap, hsize⟩, if_pos hlen]

theorem deserializeFields_of_both_errors (hlen : len.toNat ≠ 8 + payload.length) (hcap : cfg.decodePayloadCap = true)
    (hsize : 65507 < payload.length) :
    deserializeFields cfg sp dp len c payload k =
      .error (if cfg.capErrorFirst then .payloadTooLarge else .lengthMismatch) := by
  rw [← not_withinCap_iff] at hsize
  rw [deserializeFields, headerBytes, if_pos ⟨hcap, hsize⟩, if_neg hlen]

/-- What Deserialize can return for its fields. -/
theorem deserializeFields_eq_ok {s : Segment} {k' : Block} (h : deserializeFields cfg sp dp len c payload k = .ok (s, k')) :
    len.toNat = 8 + payload.length ∧
      s = withValidity (decodedSegment sp dp len c payload) (checkStored (decodedSegment sp dp len c payload) c k).1 := by
  unfold deserializeFields at h
  split at h
  · split at h <;> cases h
  · split at h
    · cases h
      exact ⟨‹_›, rfl⟩
    · cases h

end

/-- Settles O52: one clause for each case of the length field and the cap. -/
theorem deserializeReadsHeader : Obligations.DeserializeReadsHeader := by
  refine fun cfg k => ⟨fun bytes hshort => deserialize_of_short cfg hshort k, fun sp dp len c payload => ?_⟩
  rw [deserialize_wire]
  refine ⟨fun hlen hcap => ?_, deserializeFields_of_length_ne, deserializeFields_of_oversize, fun hlen hcap hsize => ?_⟩
  · refine ⟨_, _, _, deserializeFields_of_ok hlen hcap, rfl, rfl, rfl, rfl, rfl, ?_, rfl⟩
    rw [isChecksumValid_of_some rfl, checkStored_withValidity]
  · rw [deserializeFields_of_both_errors hlen hcap hsize]
    cases cfg.capErrorFirst
    · exact .inl rfl
    · exact .inr rfl

/-! ### Segments as the procedures return them (R80, R81) -/

theorem construct_length_toNat {cfg : FramerConfig} {sp dp : Int} {payload : List Byte} {s : Segment}
    (h : construct cfg sp dp payload = .ok s) : s.length.toNat = 8 + s.payload.length := by
  obtain ⟨hcap, rfl⟩ := construct_eq_ok h
  exact newSegment_length_toNat sp dp hcap

theorem construct_withinCap {cfg : FramerConfig} {sp dp : Int} {payload : List Byte} {s : Segment}
    (h : construct cfg sp dp payload = .ok s) : WithinCap s.payload := by
  obtain ⟨hcap, rfl⟩ := construct_eq_ok h
  exact hcap

/-- Settles O54: Construct sets the length field and Deserialize checks it; the header is the 8 bytes before the payload. -/
theorem lengthInvariant : Obligations.LengthInvariant := by
  refine ⟨fun _ _ _ _ _ => construct_length_toNat, fun cfg bytes k k' s h => ?_⟩
  rcases Nat.lt_or_ge bytes.length 8 with hshort | hlong
  · rw [deserialize_of_short cfg hshort] at h
    cases h
  · obtain ⟨sp, dp, len, c, payload, rfl⟩ := exists_fields bytes hlong
    rw [deserialize_wire] at h
    obtain ⟨hlen, rfl⟩ := deserializeFields_eq_ok h
    refine ⟨hlen, hlen.trans ?_⟩
    simp only [List.length_append, fieldBytes_length]

theorem not_cap_exceeded {payload : List Byte} (h : WithinCap payload) (cfg : FramerConfig) :
    ¬ (cfg.decodePayloadCap = true ∧ 65507 < payload.length) :=
  fun ⟨_, hsize⟩ => (not_withinCap_iff payload).mpr hsize h

/-- A segment that meets its length field decodes to its own fields, with the verdict on the checksum it was sent with. -/
theorem deserialize_wireBytes (cfg : FramerConfig) {s : Segment} (hlen : s.length.toNat = 8 + s.payload.length)
    (hcap : WithinCap s.payload) (c : Word) (k : Block) :
    deserialize cfg (wireBytes s c) k =
      .ok ({ s with checksum := some c, isValid := some (checkStored s c k).1 }, (checkStored s c k).2) := by
  rw [wireBytes, deserialize_wire, deserializeFields_of_ok hlen (not_cap_exceeded hcap cfg)]
  rfl

theorem deserialize_wireBytes_of_length_ne (cfg : FramerConfig) {s : Segment} (hlen : s.length.toNat ≠ 8 + s.payload.length)
    (hcap : WithinCap s.payload) (c : Word) (k : Block) :
    deserialize cfg (wireBytes s c) k = .error .lengthMismatch := by
  rw [wireBytes, deserialize_wire, deserializeFields_of_length_ne hlen (not_cap_exceeded hcap cfg)]

/-- Settles O55: the checksum computed from one block is the one computed from any other, and it is not 0x0000. -/
theorem roundTrip : Obligations.RoundTrip := by
  intro cfg cfg' sp dp payload s k k1 h
  rw [serialize_eq]
  exact ⟨_, _, deserialize_wireBytes cfg' (construct_length_toNat h) (construct_withinCap h) _ k1, rfl, rfl, rfl, rfl,
    congrArg some (checkStored_own_checksum s k k1), rfl, computeChecksum_ne_zero s k⟩

/-! ### Boundaries (R82) -/

theorem highByte_lowByte_eq_iff (w : Word) (b0 b1 : Byte) : highByte w = b0 ∧ lowByte w = b1 ↔ w = wordOf b0 b1 := by
  constructor
  · rintro ⟨rfl, rfl⟩
    exact (wordOf_highByte_lowByte w).symm
  · rintro rfl
    exact ⟨highByte_wordOf b0 b1, lowByte_wordOf b0 b1⟩

/-- Bytes 4 and 5 are the length field (20_memory.md R26). -/
theorem wire_length_field_bytes (sp dp len c : Word) (payload : List Byte) :
    (fieldBytes sp ++ fieldBytes dp ++ fieldBytes len ++ fieldBytes c ++ payload)[4]? = some (highByte len) ∧
    (fieldBytes sp ++ fieldBytes dp ++ fieldBytes len ++ fieldBytes c ++ payload)[5]? = some (lowByte len) := ⟨rfl, rfl⟩

/-- Settles O56: 8 bytes are the four fields and no payload, so the length field must be 0x0008. -/
theorem boundaryAndTruncation : Obligations.BoundaryAndTruncation := by
  refine ⟨fun cfg sp dp payload hsize => ?_, fun cfg sp dp payload hsize => ?_,
    fun cfg bytes k hsize => deserialize_of_short cfg (by omega) k, fun cfg bytes k hsize => ?_⟩
  · exact ⟨_, construct_of_ok cfg (portInRange_toNat sp) (portInRange_toNat dp) hsize.le⟩
  · exact construct_of_oversize cfg (portInRange_toNat sp) (portInRange_toNat dp)
      ((not_withinCap_iff payload).mpr (by omega))
  · obtain ⟨sp, dp, len, c, payload, rfl⟩ := exists_fields bytes hsize.ge
    simp only [List.length_append, fieldBytes_length] at hsize
    obtain rfl : payload = [] := List.eq_nil_of_length_eq_zero (by omega)
    obtain ⟨hhigh, hlow⟩ := wire_length_field_bytes sp dp len c []
    have hcap : ¬ (cfg.decodePayloadCap = true ∧ 65507 < ([] : List Byte).length) := by simp
    rw [hhigh, hlow, Option.some_inj, Option.some_inj, highByte_lowByte_eq_iff, deserialize_wire]
    refine ⟨?_, fun hne => deserializeFields_of_length_ne (BitVec.toNat_ne_iff_ne.mpr hne) hcap⟩
    rintro rfl
    exact ⟨_, _, deserializeFields_of_ok rfl hcap, rfl, rfl⟩

/-! ### One flipped bit (R83) -/

/-- A 16-bit field with bit `j` of its high byte flipped. -/
def flipHigh (w : Word) (j : Nat) : Word := wordOf (highByte w ^^^ 1#8 <<< j) (lowByte w)

/-- A 16-bit field with bit `j` of its low byte flipped. -/
def flipLow (w : Word) (j : Nat) : Word := wordOf (highByte w) (lowByte w ^^^ 1#8 <<< j)

/-- The segment whose wire format has bit `j` of byte `i` flipped; bytes 6 and 7, the checksum field, are no field of it. -/
def flipSegment (s : Segment) (i j : Nat) : Segment :=
  match i with
  | 0 => { s with sourcePort := flipHigh s.sourcePort j }
  | 1 => { s with sourcePort := flipLow s.sourcePort j }
  | 2 => { s with destinationPort := flipHigh s.destinationPort j }
  | 3 => { s with destinationPort := flipLow s.destinationPort j }
  | 4 => { s with length := flipHigh s.length j }
  | 5 => { s with length := flipLow s.length j }
  | 6 | 7 => s
  | i + 8 => { s with payload := flipBit s.payload i j }

theorem wireBytes_flipSegment (s : Segment) {i : Nat} (j : Nat) (hi : i < 6 ∨ 8 ≤ i) (c : Word) :
    wireBytes (flipSegment s i j) c = flipBit (wireBytes s c) i j := by
  match i with
  | 0 | 1 | 2 | 3 | 4 | 5 =>
    simp only [wireBytes, flipSegment, flipHigh, flipLow, fieldBytes_wordOf]
    rfl
  | 6 | 7 => omega
  | i + 8 => rfl

@[simp] theorem flipSegment_payload_length (s : Segment) (i j : Nat) :
    (flipSegment s i j).payload.length = s.payload.length := by
  match i with
  | 0 | 1 | 2 | 3 | 4 | 5 | 6 | 7 => rfl
  | i + 8 => exact flipBit_length s.payload i j

theorem flipSegment_length_of_outside (s : Segment) {i : Nat} (j : Nat) (hi : i < 4 ∨ 8 ≤ i) :
    (flipSegment s i j).length = s.length := by
  match i with
  | 0 | 1 | 2 | 3 => rfl
  | 4 | 5 | 6 | 7 => omega
  | i + 8 => rfl

theorem differsByBit_flip_byte (b : Byte) {j : Nat} (hj : j < 8) : DiffersByBit 8 b.toNat (b ^^^ 1#8 <<< j).toNat := by
  rw [← BitVec.twoPow_eq]
  exact differsByBit_xor_twoPow hj b

theorem differsByBit_flipHigh (w : Word) {j : Nat} (hj : j < 8) : DiffersByBit 16 w.toNat (flipHigh w j).toNat := by
  have h := differsByBit_wordOf_high (differsByBit_flip_byte (highByte w) hj) (lowByte w)
  rwa [wordOf_highByte_lowByte] at h

theorem differsByBit_flipLow (w : Word) {j : Nat} (hj : j < 8) : DiffersByBit 16 w.toNat (flipLow w j).toNat := by
  have h := differsByBit_wordOf_low (differsByBit_flip_byte (lowByte w) hj) (highByte w)
  rwa [wordOf_highByte_lowByte] at h

theorem DiffersByBit.ne {t u : Nat} (h : DiffersByBit 16 t u) : u ≠ t := fun heq => h.mod_ne (by rw [heq])

theorem flipSegment_length_toNat_ne (s : Segment) {i j : Nat} (hi : i = 4 ∨ i = 5) (hj : j < 8) :
    (flipSegment s i j).length.toNat ≠ s.length.toNat := by
  rcases hi with rfl | rfl
  · exact (differsByBit_flipHigh s.length hj).ne
  · exact (differsByBit_flipLow s.length hj).ne

/-- A checksum computed before the flip is neither 0x0000 nor the checksum after it (R58). -/
theorem checkStored_flipSegment (s : Segment) {i j : Nat} (hout : i < 6 ∨ 8 ≤ i) (hi : i < (checksumBytes s).length)
    (hj : j < 8) (k k' : Block) : (checkStored (flipSegment s i j) (computeChecksum s k).1 k').1 = false := by
  obtain ⟨-, -, -, hne, -, -⟩ := singleBitSensitivity (checksumBytes s) k.err i j hi hj
  have hflip : checksumBytes (flipSegment s i j) = flipBit (checksumBytes s) i j := wireBytes_flipSegment s j hout _
  rw [Bool.eq_false_iff, ne_eq, checkStored_valid_iff, or_iff_right (computeChecksum_ne_zero s k),
    computeChecksum_eq, computeChecksum_eq, hflip]
  exact hne.symm

/-- Settles O57: a flipped bit of a port or of the payload flips that bit of the checksummed bytes, and one of the length field
leaves a number the payload does not have. -/
theorem flippedBitIsDetected : Obligations.FlippedBitIsDetected := by
  intro cfg cfg' sp dp payload s k k1 i j h hi hj
  have hlen := construct_length_toNat h
  have hcap : WithinCap (flipSegment s i j).payload := by
    rw [WithinCap, flipSegment_payload_length]
    exact construct_withinCap h
  rw [serialize_eq] at hi ⊢
  refine ⟨fun hout => ?_, fun hfield => ?_⟩
  · have hout' : i < 6 ∨ 8 ≤ i := by omega
    have hi' : i < (checksumBytes s).length := by rwa [checksumBytes_length, ← wireBytes_length s (computeChecksum s k).1]
    have hlen' : (flipSegment s i j).length.toNat = 8 + (flipSegment s i j).payload.length := by
      rw [flipSegment_length_of_outside s j hout, flipSegment_payload_length, hlen]
    rw [← wireBytes_flipSegment s j hout', deserialize_wireBytes cfg' hlen' hcap]
    exact ⟨_, _, rfl, congrArg some (checkStored_flipSegment s hout' hi' hj k k1)⟩
  · have hne : (flipSegment s i j).length.toNat ≠ 8 + (flipSegment s i j).payload.length := by
      rw [flipSegment_payload_length, ← hlen]
      exact flipSegment_length_toNat_ne s hfield hj
    rw [← wireBytes_flipSegment s j (by omega), deserialize_wireBytes_of_length_ne cfg' hne hcap]

/-! ### A zero checksum field (R84) -/

/-- Settles O58: the stored 0x0000 is valid for every payload; the length check comes before. -/
theorem zeroChecksumIsValid : Obligations.ZeroChecksumIsValid := by
  intro cfg sp dp len payload k
  have hzero : [0x00#8, 0x00#8] = fieldBytes 0x0000#16 := by decide
  rw [hzero, deserialize_wire]
  refine ⟨fun s k' h => ?_, fun hlen hcap => deserializeFields_of_length_ne hlen (not_cap_exceeded hcap cfg)⟩
  obtain ⟨-, rfl⟩ := deserializeFields_eq_ok h
  exact congrArg some (checkStored_zero _ k)

/-! ### The concrete scenario (R85) -/

/-- The segment of the source's scenario: ports 12345 and 80, payload 68 69. -/
def scenarioSegment : Segment := newSegment 12345 80 [0x68#8, 0x69#8]

theorem construct_scenario (cfg : FramerConfig) : construct cfg 12345 80 [0x68#8, 0x69#8] = .ok scenarioSegment :=
  construct_of_ok cfg (by decide) (by decide) (by decide)

theorem computeChecksum_scenario (k : Block) : (computeChecksum scenarioSegment k).1 = 0x6703#16 := by
  rw [computeChecksum_any_block _ k Block.reset]
  decide

/-- Settles O59: the checksum is the same from every block, so one evaluation gives the bytes; they decode as R81 says. -/
theorem concreteScenario : Obligations.ConcreteScenario := by
  intro cfg cfg' k k1
  have hbytes : wireBytes scenarioSegment 0x6703#16 =
      [0x30#8, 0x39#8, 0x00#8, 0x50#8, 0x00#8, 0x0A#8, 0x67#8, 0x03#8, 0x68#8, 0x69#8] := by decide
  have hsum : fold16 (exactSum (paddedWords (checksumBytes scenarioSegment))) = 0x98FC#16 := by decide
  obtain ⟨t, k2, hdecode, hsp, hdp, hpayload, hlength, hvalid, -, -⟩ :=
    roundTrip cfg cfg' 12345 80 _ _ k k1 (construct_scenario cfg)
  refine ⟨scenarioSegment, t, k2, construct_scenario cfg, ?_, ?_, hdecode, ?_, ?_, hpayload, ?_, hvalid⟩
  · rw [serialize_eq, computeChecksum_scenario]
    exact hbytes
  · rw [serialize_eq, computeChecksum_eq, paddedSum_blockOf, hsum]
  · rw [hsp]
    decide
  · rw [hdp]
    decide
  · rw [hlength]
    decide

end Sys2Proof.Machine
end

section
/-! PROOFS for 60_exceptions.md R90. The reject action as a step. -/

namespace Sys2Proof.Machine

theorem reject_block_of_err {k : Block} (h : k.err = true) : (reject k).1 = k := by
  obtain ⟨sum, hold, odd, err⟩ := k
  cases h
  rfl

/-- Settles O18: a word that decodes to no command is reserved, and its step completes the reject action. -/
theorem reservedWordSetsErrOnly : Obligations.ReservedWordSetsErrOnly := by
  intro s w rest hpending hdecode
  obtain ⟨r, hr⟩ := (exists_reserved_iff w).mpr hdecode
  exact ⟨_, step_of_reserved hpending hr, rfl, rfl, rfl, rfl, rfl, rfl, reject_block_of_err⟩

end Sys2Proof.Machine
end

section
/-! PROOFS for 70_reset_and_hazards.md. Reset and CLR; a run as the fold of the block's transaction; and R103: the padded sum and
the phase decide all that follows, since each byte acts on the padded sum alone (`paddedSum_absorbByte`). -/

namespace Sys2Proof.Machine

/-! ### Reset, CLR and the idle step (R100, R101, R109) -/

/-- Settles O14: the step that takes a reset, with the reset registers written out. -/
theorem resetEventResets : Obligations.ResetEventResets := fun _ _ => step_of_reset

theorem clearStream_of_err_eq_false {k : Block} (h : k.err = false) : clearStream k = Block.reset := by
  rw [clearStream, h]
  rfl

/-- Settles O15: CLR's transaction leaves the cleared block, which is the reset block when `ERR` is 0. -/
theorem clrComparedWithReset : Obligations.ClrComparedWithReset := fun s =>
  ⟨_, _, exec_eq_complete_effect .clr s, rfl, clearStream_sum s.block, clearStream_hold s.block, clearStream_odd s.block,
    clearStream_err s.block, reset_err, clearStream_of_err_eq_false⟩

/-- Settles O17: with nothing pending a step takes nothing. -/
theorem stepIdles : Obligations.StepIdles := fun _ => step_of_nothing

/-! ### A run (R109) -/

/-- Settles O20: each step is the transaction on the oldest word, and the rest of the run is that of the words after it. -/
theorem runIsLeftToRight : Obligations.RunIsLeftToRight := by
  intro ws
  induction ws with
  | nil =>
    rintro ⟨block, pending, responses⟩ rest rfl
    simp [core_run_zero]
  | cons w ws ih =>
    intro s rest hpending
    rw [List.length_cons, core_run_of_next ws.length (step_of_word hpending), ih _ rest rfl]
    simp [runCommands]

/-! ### The future of a block (R103) -/

/-- A byte is added to the padded sum in the half of a word that the phase gives it: the held byte has been counted there. -/
theorem paddedSum_absorbByte (b : Byte) (k : Block) :
    paddedSum (absorbByte b k) = ocAdd (paddedSum k) (if k.odd then wordOf 0x00#8 b else wordOf b 0x00#8) := by
  cases hodd : k.odd with
  | false =>
    rw [absorbByte_even b k hodd, paddedSum_odd _ rfl, paddedSum_even k hodd]
    rfl
  | true => rw [absorbByte_odd b k hodd, paddedSum_even _ rfl, paddedSum_odd k hodd, padByte, if_pos rfl, ocAdd_halves]

theorem sameFuture_absorbByte (b : Byte) {k k' : Block} (h : SameFuture k k') :
    SameFuture (absorbByte b k) (absorbByte b k') := by
  obtain ⟨hodd, herr, hsum, -, -⟩ := h
  refine ⟨?_, ?_, ?_, phaseInv_absorbByte b k, phaseInv_absorbByte b k'⟩
  · rw [absorbByte_phase, absorbByte_phase, hodd]
  · rw [absorbByte_err, absorbByte_err, herr]
  · rw [paddedSum_absorbByte, paddedSum_absorbByte, hodd, hsum]

theorem sameFuture_clearStream {k k' : Block} (h : k.err = k'.err) : SameFuture (clearStream k) (clearStream k') :=
  ⟨rfl, h, rfl, fun _ => clearStream_hold k, fun _ => clearStream_hold k'⟩

theorem sameFuture_effect (i : Instr) {k k' : Block} (h : SameFuture k k') :
    SameFuture (effect i k).1 (effect i k').1 := by
  cases i with
  | nop | rdsum | rdcsum | verify _ | rdst => exact h
  | clr =>
    obtain ⟨-, herr, -, -, -⟩ := h
    exact sameFuture_clearStream herr
  | addb b => exact sameFuture_absorbByte b h
  | addw w => exact sameFuture_absorbByte (lowByte w) (sameFuture_absorbByte (highByte w) h)

theorem sameFuture_reject {k k' : Block} (h : SameFuture k k') : SameFuture (reject k).1 (reject k').1 := by
  obtain ⟨hodd, -, hsum, hinv, hinv'⟩ := h
  exact ⟨hodd, rfl, hsum, hinv, hinv'⟩

theorem sameFuture_transact (w : Command) {k k' : Block} (h : SameFuture k k') :
    SameFuture (transact w k).1 (transact w k').1 := by
  rcases transact_cases w with ⟨i, -, -, hw, -⟩ | ⟨-, hw, -⟩
  · rw [hw, hw]
    exact sameFuture_effect i h
  · rw [hw, hw]
    exact sameFuture_reject h

theorem sameFuture_runCommands (ws : List Command) {k k' : Block} (h : SameFuture k k') :
    SameFuture (runCommands ws k).1 (runCommands ws k').1 := by
  induction ws generalizing k k' with
  | nil => exact h
  | cons w ws ih => exact ih (sameFuture_transact w h)

/-! ### The responses of two blocks with the same future (R103) -/

theorem csumFinal_congr {k k' : Block} (h : paddedSum k = paddedSum k') : csumFinal k = csumFinal k' := by
  rw [csumFinal, csumFinal, h]

/-- No command but RDST reads more of the block than its padded sum. -/
theorem effect_response_congr {i : Instr} (hi : i ≠ .rdst) {k k' : Block} (h : paddedSum k = paddedSum k') :
    (effect i k).2 = (effect i k').2 := by
  cases i with
  | nop | clr | addb _ | addw _ => rfl
  | rdsum => exact h
  | rdcsum => exact csumFinal_congr h
  | verify c => rw [verify_response, verify_response, csumFinal_congr h]
  | rdst => exact absurd rfl hi

/-- Bits 7:0 of the status word hold the two flags and no bit of `HOLD` (R18). -/
theorem lowByte_statusWord_congr {k k' : Block} (herr : k.err = k'.err) (hodd : k.odd = k'.odd) :
    lowByte (statusWord k) = lowByte (statusWord k') := by
  apply BitVec.eq_of_toNat_eq
  rw [lowByte_toNat, lowByte_toNat, statusWord_toNat, statusWord_toNat, herr, hodd]
  omega

theorem transact_response_of_sameFuture {w : Command} (hw : decode w ≠ .command .rdst) {k k' : Block}
    (h : SameFuture k k') : (transact w k).2 = (transact w k').2 := by
  obtain ⟨-, -, hsum, -, -⟩ := h
  rcases transact_cases w with ⟨i, hi, -, htransact, -⟩ | ⟨-, htransact, -⟩
  · rw [htransact, htransact]
    exact effect_response_congr (fun hrdst => hw (hrdst ▸ hi)) hsum
  · rw [htransact, htransact, reject_response, reject_response]

theorem lowByte_transact_response_of_sameFuture (w : Command) {k k' : Block} (h : SameFuture k k') :
    lowByte (transact w k).2 = lowByte (transact w k').2 := by
  by_cases hw : decode w = .command .rdst
  · obtain ⟨hodd, herr, -, -, -⟩ := h
    rw [transact_command hw, transact_command hw]
    exact lowByte_statusWord_congr herr hodd
  · rw [transact_response_of_sameFuture hw h]

theorem runCommands_responses_of_sameFuture {ws : List Command} (hws : ∀ w ∈ ws, decode w ≠ .command .rdst)
    {k k' : Block} (h : SameFuture k k') : (runCommands ws k).2 = (runCommands ws k').2 := by
  induction ws generalizing k k' with
  | nil => rfl
  | cons w ws ih =>
    obtain ⟨hw, hrest⟩ := List.forall_mem_cons.mp hws
    rw [runCommands, runCommands, transact_response_of_sameFuture hw h, ih hrest (sameFuture_transact w h)]

theorem lowByte_runCommands_responses_of_sameFuture (ws : List Command) {k k' : Block} (h : SameFuture k k') :
    (runCommands ws k).2.map lowByte = (runCommands ws k').2.map lowByte := by
  induction ws generalizing k k' with
  | nil => rfl
  | cons w ws ih =>
    rw [runCommands, runCommands, List.map_cons, List.map_cons, lowByte_transact_response_of_sameFuture w h,
      ih (sameFuture_transact w h)]

/-- Settles O45: every transaction keeps the relation and answers alike but for `HOLD`; the rest is induction on the run. -/
theorem sameFutureIsIndistinguishable : Obligations.SameFutureIsIndistinguishable := fun _ _ ws h =>
  ⟨sameFuture_runCommands ws h, fun hws => runCommands_responses_of_sameFuture hws h,
    lowByte_runCommands_responses_of_sameFuture ws h⟩

/-! ### Suspend and resume (R103) -/

theorem absorbWord_clearStream (w : Word) (k : Block) :
    absorbWord w (clearStream k) = { sum := w, hold := 0x00#8, odd := false, err := k.err } := by
  rw [absorbWord_even w _ (clearStream_odd k), clearStream_sum, clearStream_err, ocAdd_comm, ocAdd_zero]

theorem runCommands_clr_addw (w : Word) (ws : List Command) (k : Block) :
    (runCommands (encode .clr :: encode (.addw w) :: ws) k).1 =
      (runCommands ws { sum := w, hold := 0x00#8, odd := false, err := k.err }).1 := by
  rw [runCommands_encode_cons, runCommands_encode_cons, ← absorbWord_clearStream]
  rfl

/-- At even phase `ERR` and the padded sum are the whole block (R12). -/
theorem with_err_eq_of_even {k : Block} (heven : k.odd = false) (hinv : PhaseInv k) (err : Bool) :
    { k with err := err } = ({ sum := paddedSum k, hold := 0x00#8, odd := false, err := err } : Block) := by
  rw [Block.mk.injEq]
  exact ⟨(paddedSum_even k heven).symm, hinv heven, heven, rfl⟩

/-- At odd phase the held byte can be folded into `SUM`, a zero byte taking its place. -/
theorem sameFuture_fold_hold {k : Block} (hodd : k.odd = true) (hinv : PhaseInv k) :
    SameFuture k { sum := paddedSum k, hold := 0x00#8, odd := true, err := k.err } := by
  have hword : wordOf 0x00#8 padByte = 0x0000#16 := by decide
  refine ⟨hodd, rfl, Eq.symm ?_, hinv, fun _ => rfl⟩
  rw [paddedSum_odd _ rfl, hword, ocAdd_zero]

/-- Settles O44: CLR and ADDW of the padded sum leave it in `SUM` at even phase; ADDB 0x00 then only turns the phase. -/
theorem suspendAndResume : Obligations.SuspendAndResume := by
  intro k m hinv
  refine ⟨rfl, statusWord_odd k, fun heven => ?_, fun hodd => ?_, fun hodd => sameFuture_fold_hold hodd hinv⟩
  · rw [runCommands_clr_addw, runCommands_nil, with_err_eq_of_even heven hinv]
  · rw [runCommands_clr_addw, runCommands_encode_cons, runCommands_nil, effect, addbEffect, absorbByte_even 0x00#8 _ rfl]

end Sys2Proof.Machine
end
